-- ==== Sys2Proof/Config.lean ====
section
/-! DEFINITION. The parameters of the block (00_scope.md R7) and the values the spec leaves free (93_implementation_defined.md I3, U6). -/

namespace Sys2Proof.Config

/-- PACKET_LENGTH: bytes per Frame (R7). -/
def packetLength : Nat := 25
/-- START: the start marker, frame byte 0 (R7, R66). -/
def startMarker : BitVec 8 := 0x0F
/-- END: the end marker, frame byte 24 (R7, R66). -/
def endMarker : BitVec 8 := 0x00
/-- PAYLOAD_OFS: index of the first payload byte in a Frame (R7). -/
def payloadOfs : Nat := 1
/-- PAYLOAD_LEN: payload bytes, frame bytes 1..22 (R7). -/
def payloadLen : Nat := 22
/-- FLAG_IDX: index of the flag byte (R7, R70). -/
def flagIdx : Nat := 23
/-- NCH: channels per ChannelSet (R7). -/
def nch : Nat := 16
/-- CH_W: bits per channel code (R7). -/
abbrev chW : Nat := 11
/-- CH_MAX: the largest channel code (R7). -/
def chMax : Nat := 2047
/-- PW_IN_LO: the channel code that maps to PW_MIN (R7). -/
def pwInLo : Nat := 172
/-- PW_IN_SPAN: input span of the linear rescale (R7). -/
def pwInSpan : Nat := 1639
/-- PW_OUT_SPAN: output span of the linear rescale (R7). -/
def pwOutSpan : Nat := 1000
/-- PW_MIN: lower clamp of a pulse width (R7). -/
def pwMin : Nat := 1000
/-- PW_MAX: upper clamp of a pulse width (R7). -/
def pwMax : Nat := 2000
/-- RAW_CAP: capacity of RawByteBatch in bytes (R7, decision D9). -/
def rawCap : Nat := 256
/-- RAWLEN_W: width of the raw-feed length field (R7, decision D29). -/
abbrev rawLenW : Nat := 9
/-- TS_W: width of the timestamp input (R7, decision D8). -/
abbrev tsW : Nat := 32
/-- T_RAW in microseconds: the recommended 25 ms, supplied by the environment (R7, decision D7). -/
def tRawMicros : Nat := 25000
/-- T_DEC in microseconds: the recommended 50 ms, supplied by the environment (R7, decision D7). -/
def tDecMicros : Nat := 50000
/-- BAUD of the external Transport (R7). It binds the environment only. -/
def baud : Nat := 100000
/-- Bit times of one byte on the external line: 1 start, 8 data, 1 parity, 2 stop (R188). -/
def bitTimesPerByte : Nat := 12
/-- The time of one byte on the external line in microseconds (R188). -/
def byteMicros : Nat := bitTimesPerByte * 1000000 / baud

/-- What START does while a session is active: the spec's open parameter START_WHILE_ACTIVE
(92_eei_decisions.md D15, U7). -/
inductive StartPolicy where
  | ignore
  | restart
deriving DecidableEq, Repr

/-- START_WHILE_ACTIVE of this hardware (R136, decision D15). -/
def startWhileActive : StartPolicy := .ignore

/-- The values that R7 marks as decisions and the open parameters of 92_eei_decisions.md, as one argument of the parametric
machine (`Machine/Parametric.lean`), of its state and ports, and of the environment's duties. RAWLEN_W is not among them, since R7 computes it. -/
structure Params where
  /-- RAW_CAP, any n of at least 1. -/
  rawCap : Nat
  /-- TS_W, any width of at least 1. -/
  tsW : Nat
  /-- T_RAW in microseconds. -/
  tRawMicros : Nat
  /-- T_DEC in microseconds. -/
  tDecMicros : Nat
  /-- START_WHILE_ACTIVE. -/
  startWhileActive : StartPolicy
deriving DecidableEq, Repr

/-- RAWLEN_W = ceil(log2(RAW_CAP + 1)) (R7, decision D29): the number of bits that write RAW_CAP. -/
def Params.rawLenW (c : Params) : Nat := Nat.log2 c.rawCap + 1

/-- The parameter values of this hardware (R7). -/
abbrev hardware : Params := ⟨rawCap, tsW, tRawMicros, tDecMicros, startWhileActive⟩

/-! Free values. None has a body, so no proof sees a value; each is applied to the position in the event
sequence, which every step advances (log entry 3). -/

/-- `ts_in`, `w` bits wide, in a step for which no input is listed (R76: a draw). -/
opaque freeTimestamp (w : Nat) : Nat → BitVec w
/-- `ev_op` in a step for which no input is listed: `ev_valid` is 0 there, and R60 gives the port no value. -/
opaque freeEvOp : Nat → BitVec 3
/-- `ev_data` in a step for which no input is listed: `ev_valid` is 0 there, and R60 gives the port no value. -/
opaque freeEvData : Nat → BitVec 8
/-- `cd_frame_in` in a step for which no input is listed. -/
opaque freeFrameIn : Nat → BitVec 200
/-- `rs_ch_in` in a step for which no input is listed. -/
opaque freeChannelsIn : Nat → BitVec 176
/-- `fr_data` while `fr_valid` is 0 (U6). -/
opaque freeFrData : Nat → BitVec 200
/-- `raw_len`, `n` bits wide, while `raw_valid` is 0 (U6). -/
opaque freeRawLen (n : Nat) : Nat → BitVec n
/-- `raw_data`, `n` bits wide, while `raw_valid` is 0 (R74 gives it no value there). -/
opaque freeRawData (n : Nat) : Nat → BitVec n
/-- `dec_ch` while `dec_valid` is 0 (U6). -/
opaque freeDecCh : Nat → BitVec 256
/-- `dec_ts`, `w` bits wide, while `dec_valid` is 0 (U6). -/
opaque freeDecTs (w : Nat) : Nat → BitVec w
/-- `cd_ch_out` before the first step. -/
opaque freeCdChOut : Nat → BitVec 176
/-- `cd_fmt_err` before the first step. -/
opaque freeCdFmtErr : Nat → Bool
/-- `rs_pw_out` before the first step, and where the software contract answers ShapeError. -/
opaque freeRsPwOut : Nat → BitVec 176

end Sys2Proof.Config
end

