-- ==== Sys2Proof/Word.lean ====
section
/-! DEFINITION. The word types of the block (00_scope.md R8, R11; 30_encoding.md R60, R72, R76). -/

namespace Sys2Proof

/-- A byte, 0..255 (R8). -/
abbrev Byte := BitVec 8
/-- The 11-bit event word `{ev_op, ev_data}` (R60). -/
abbrev EventWord := BitVec 11
/-- An 11-bit channel code, 0..2047 (R11). -/
abbrev Code := BitVec Config.chW
/-- A pulse width as an 11-bit lane (R72). -/
abbrev PulseWidth := BitVec 11
/-- A timestamp of TS_W bits (R76). The width is a parameter of the block (R7, decision D8), this hardware's where none is named. -/
abbrev Timestamp (w : Nat := Config.tsW) := BitVec w
/-- A ChannelSet, a list of 16 codes (R11; the length is part of the model's invariant). -/
abbrev ChannelSet := List Code
/-- A PulseWidths, a list of 16 pulse widths (R11). -/
abbrev PulseWidths := List PulseWidth

end Sys2Proof
end

