-- ==== Sys2Proof/Machine/Lanes.lean ====
section
/-! DEFINITION. Packing lists into wide ports, lane 0 in the least significant bits (20_memory.md R43; 30_encoding.md R71, R72, R75). -/

namespace Sys2Proof.Machine

/-- The number whose lane `k` of `w` bits is element `k` (R43, R67). -/
def packLanes (w : Nat) : List Nat → Nat
  | [] => 0
  | x :: xs => x % 2 ^ w + 2 ^ w * packLanes w xs

/-- The first `n` lanes of `w` bits of a number, lane 0 first (R43, R68). -/
def unpackLanes (w : Nat) : Nat → Nat → List Nat
  | 0, _ => []
  | n + 1, v => v % 2 ^ w :: unpackLanes w n (v / 2 ^ w)

/-- The number of a list of words of one width, word 0 in the least significant bits. -/
def packWords {w : Nat} (l : List (BitVec w)) : Nat :=
  packLanes w (l.map BitVec.toNat)

/-- The first `n` words of `w` bits of a number. -/
def unpackWords (w n v : Nat) : List (BitVec w) :=
  (unpackLanes w n v).map (BitVec.ofNat w)

/-- The bytes of `cd_frame_in`: byte `k` at bits `[8k+7:8k]` (R77). -/
def frameBytes (v : BitVec 200) : List Byte :=
  unpackWords 8 25 v.toNat

/-- The codes of `rs_ch_in`: lane `i` at bits `[11i+10:11i]` (R71, R78). -/
def channelLanes (v : BitVec 176) : List Code :=
  unpackWords Config.chW 16 v.toNat

end Sys2Proof.Machine
end

