-- ==== Sys2Proof/Syntax.lean ====
section
/-! DEFINITION. The operations of the block, one constructor per row of the opcode table, and the input ports of one step. -/

namespace Sys2Proof

/-- One operation of the block. The first seven are event words (30_encoding.md R61, R65), `decode` and `rescale`
are the two combinational ports (R77, R78), `reset` is the pin `rst` (R79). The data field of an event other than
BYTE is no operand (R62), and the timestamp of TICK_DEC is an input of the step, not of the word (R76). -/
inductive Instr where
  /-- NOP, op 000 (42_pipeline.md R131). -/
  | nop
  /-- BYTE, op 001, with the received byte (R132, R133). -/
  | byte (d : Byte)
  /-- TICK_RAW, op 010 (R134). -/
  | tickRaw
  /-- TICK_DEC, op 011 (R135). -/
  | tickDec
  /-- START, op 100 (R136). -/
  | start
  /-- STOP, op 101 (R137). -/
  | stop
  /-- RESERVED(op), op 110 or 111 (R138). -/
  | reserved (op : BitVec 3)
  /-- DECODE of a candidate: 25 bytes at the port, a list of any length under the software contract (40_codec.md R92, R94). -/
  | decode (frame : List Byte)
  /-- RESCALE of codes: 16 lanes at the port, a list of any length under the software contract (40_codec.md R96, R97). -/
  | rescale (channels : List Code)
  /-- RESET, `rst = 1` (70_reset_and_hazards.md R180). -/
  | reset
deriving DecidableEq, Repr

/-- The values on the input ports in one step (30_encoding.md R80), `ts_in` being `w` bits wide (00_scope.md R7, TS_W). -/
structure PortInput (w : Nat := Config.tsW) where
  rst : Bool
  evValid : Bool
  evOp : BitVec 3
  evData : Byte
  tsIn : Timestamp w
  cdFrameIn : BitVec 200
  rsChIn : BitVec 176
deriving DecidableEq, Repr

end Sys2Proof
end

