-- ==== Sys2Proof/WellFormed.lean ====
section
/-! DEFINITION. Which terms of `Instr` the hardware's ports can present. -/

namespace Sys2Proof

/-- A reserved event has op 110 or 111 (30_encoding.md R64). -/
def Instr.reservedOpOk : Instr → Bool
  | .reserved op => op == 6 || op == 7
  | _ => true

/-- The DECODE port presents exactly 25 bytes (40_codec.md R94). -/
def Instr.frameWidthOk : Instr → Bool
  | .decode f => f.length == Config.packetLength
  | _ => true

/-- The RESCALE port presents exactly 16 lanes (40_codec.md R97). -/
def Instr.laneCountOk : Instr → Bool
  | .rescale c => c.length == Config.nch
  | _ => true

/-- The operation is one the ports can present. -/
def Instr.wellFormed (i : Instr) : Bool :=
  i.reservedOpOk && i.frameWidthOk && i.laneCountOk

end Sys2Proof
end

