-- ==== Sys2Proof/Decode.lean ====
section
/-! DEFINITION. From port values to operations, and the encoder back (30_encoding.md R60 to R65, R77 to R79). -/

namespace Sys2Proof

/-- The event word `{ev_op, ev_data}` (R60). -/
def eventWord (op : BitVec 3) (data : Byte) : EventWord := op ++ data

/-- `ev[10:8]` (R61). -/
def EventWord.op (ev : EventWord) : BitVec 3 := ev.extractLsb' 8 3

/-- `ev[7:0]` (R62). -/
def EventWord.data (ev : EventWord) : Byte := ev.extractLsb' 0 8

/-- The decoder of event words: total, and it reads `ev[10:8]` alone but for BYTE's operand (R65). -/
def decodeEvent (ev : EventWord) : Instr :=
  let op := EventWord.op ev
  if op = 0 then .nop
  else if op = 1 then .byte (EventWord.data ev)
  else if op = 2 then .tickRaw
  else if op = 3 then .tickDec
  else if op = 4 then .start
  else if op = 5 then .stop
  else .reserved op

/-- The event operation of one step: `rst` overrides the event word (R79), and a step without an event has
the effect of NOP (R63). -/
def PortInput.instr {w : Nat} (p : PortInput w) : Instr :=
  if p.rst then .reset
  else if p.evValid then decodeEvent (eventWord p.evOp p.evData)
  else .nop

/-- Where an operation stands on the ports: an event word, the value of a codec port, or the reset pin. -/
inductive Encoded where
  | event (ev : EventWord)
  | cdFrameIn (v : BitVec 200)
  | rsChIn (v : BitVec 176)
  | rst
deriving DecidableEq, Repr

/-- The operation that a port value presents (R65, R77, R78, R79). -/
def decodeEncoded : Encoded → Instr
  | .event ev => decodeEvent ev
  | .cdFrameIn v => .decode (Machine.frameBytes v)
  | .rsChIn v => .rescale (Machine.channelLanes v)
  | .rst => .reset

/-- The port value of an operation. A word other than BYTE is written with data 0x00, as the assembler does
(R62, R82). -/
def encode : Instr → Encoded
  | .nop => .event (eventWord 0 0)
  | .byte d => .event (eventWord 1 d)
  | .tickRaw => .event (eventWord 2 0)
  | .tickDec => .event (eventWord 3 0)
  | .start => .event (eventWord 4 0)
  | .stop => .event (eventWord 5 0)
  | .reserved op => .event (eventWord op 0)
  | .decode f => .cdFrameIn (BitVec.ofNat 200 (Machine.packWords f))
  | .rescale c => .rsChIn (BitVec.ofNat 176 (Machine.packWords c))
  | .reset => .rst

/-- Why bytes are not an event word. -/
inductive DecodeRejection where
  /-- Fewer than two bytes. -/
  | tooShort
  /-- One of the bits above bit 10 is set: the port has 11 bits (R60). -/
  | notAnEventWord
deriving DecidableEq, Repr

/-- An event word stored in two bytes, low byte first (the spec gives the word no bytes: log entry 7), and
the bytes that follow it. -/
def decodeBytes : List Byte → Except DecodeRejection (Instr × List Byte)
  | b0 :: b1 :: rest =>
    let w := b0.toNat + 256 * b1.toNat
    if w < 2048 then .ok (decodeEvent (BitVec.ofNat 11 w), rest) else .error .notAnEventWord
  | _ => .error .tooShort

/-- The bytes of an event word, low byte first (log entry 7). -/
def eventBytes (ev : EventWord) : List Byte :=
  [BitVec.ofNat 8 ev.toNat, BitVec.ofNat 8 (ev.toNat / 256)]

/-- The operation the decoder reads from a table word: two bytes of an event word, or the 200 or 176 bits of a
codec port (log entry 7). -/
def decodeTableWord (nbits w : Nat) : Option Instr :=
  if nbits = 200 then
    if w < 2 ^ 200 then some (decodeEncoded (.cdFrameIn (BitVec.ofNat 200 w))) else none
  else if nbits = 176 then
    if w < 2 ^ 176 then some (decodeEncoded (.rsChIn (BitVec.ofNat 176 w))) else none
  else
    match decodeBytes [BitVec.ofNat 8 w, BitVec.ofNat 8 (w / 256)] with
    | .ok (i, _) => if w < 65536 then some i else none
    | .error _ => none

end Sys2Proof
end

