-- ==== Sys2Proof/Machine/State.lean ====
section
/-! DEFINITION. The state of the block, its messages and errors, and the state after reset. -/

namespace Sys2Proof

/-- Port values before the first step: no event, every wire 0 (log entry 5). -/
def PortInput.atRest {w : Nat} : PortInput w := ⟨false, false, 0, 0, 0, 0, 0⟩

namespace Machine

/-- FormatError: a candidate frame fails shape or marker validation; it records the offending frame (60_exceptions.md R161). -/
structure FormatError where
  frame : List Byte
deriving DecidableEq, Repr

/-- ShapeError: a channel set does not have 16 elements; it records the count (R161). -/
structure ShapeError where
  count : Nat
deriving DecidableEq, Repr

/-- The source's error taxonomy (R161). Only the first two are results of the block's operations; a TransportError is the
environment's (R164). -/
inductive CoreError where
  | formatError (e : FormatError)
  | shapeError (e : ShapeError)
  | transportError
deriving DecidableEq, Repr

/-- The decoded feed message `DecOut(ch, ts)` (30_encoding.md R75), the timestamp `w` bits wide. -/
structure DecMessage (w : Nat := Config.tsW) where
  channels : List (BitVec 16)
  ts : Timestamp w
deriving DecidableEq, Repr

/-- What the output ports show for the last step: at most one message on each of `fr`, `raw` and `dec`
(10_state.md R28), and the results of the two codec ports (R77, R78; none before any step). -/
structure Outputs (w : Nat := Config.tsW) where
  fr : Option (List Byte)
  raw : Option (List Byte)
  dec : Option (DecMessage w)
  cd : Option (Except FormatError ChannelSet)
  rs : Option (Except ShapeError PulseWidths)
deriving DecidableEq, Repr

/-- The state: the spec's four elements (10_state.md R20), then the model's own fields. The argument is the width
TS_W of the timestamp (00_scope.md R7), this hardware's where none is named; no element of R20 depends on it. -/
structure State (w : Nat := Config.tsW) where
  /-- `s.active`, the session flag (R21). -/
  active : Bool
  /-- `s.backlog`, index 0 the oldest byte (R22). -/
  backlog : List Byte
  /-- `s.batch`, the RawByteBatch, index 0 the oldest byte (R24). -/
  batch : List Byte
  /-- `s.slot`, the LatestFrameSlot (R25). -/
  slot : Option ChannelSet
  /-- Model's own: the port values the environment presents in the coming steps, oldest first (log entry 2). -/
  inputs : List (PortInput w)
  /-- Model's own: the port values of the step being processed (log entry 5). -/
  port : PortInput w
  /-- Model's own: the position in the event sequence (R31), the index of every free value (log entry 3). -/
  pos : Nat
  /-- Model's own: the outputs of the last step (R28). -/
  out : Outputs w
  /-- Model's own: the run holds a reserved event word and is marked refused (30_encoding.md R64, log entry 1). -/
  runRefused : Bool
deriving DecidableEq, Repr

/-- The spec's state vector alone: the four elements of 10_state.md R20. -/
structure Block where
  active : Bool
  backlog : List Byte
  batch : List Byte
  slot : Option ChannelSet
deriving DecidableEq, Repr

/-- The four elements of R20 of a state. -/
def State.block {w : Nat} (s : State w) : Block :=
  ⟨s.active, s.backlog, s.batch, s.slot⟩

/-- Why the machine stops with a fault. There is no reason: the block has no trap, and every step completes or is replaced
by reset (60_exceptions.md R160). Safe: nothing raises it. -/
inductive Fault where
deriving DecidableEq, Repr

/-- Why an operation has no meaning. -/
inductive Refusal where
  /-- Raised by an arm of `exec` whose operation has no meaning yet. Safe: the run stops. No arm raises it. -/
  | notModelled (mnemonic : String)
deriving DecidableEq, Repr

/-- No message on any port, no codec result yet. -/
def Outputs.silent {w : Nat} : Outputs w := ⟨none, none, none, none, none⟩

/-- The state after reset at any timestamp width (10_state.md R33, 70_reset_and_hazards.md R180). -/
def State.resetAt (w : Nat) : State w where
  active := false
  backlog := []
  batch := []
  slot := none
  inputs := []
  port := PortInput.atRest
  pos := 0
  out := Outputs.silent
  runRefused := false

/-- The state after reset of this hardware. -/
def State.reset : State := State.resetAt Config.tsW

end Machine

end Sys2Proof
end

