-- ==== Sys2Proof/Machine/Operands.lean ====
section
/-! DEFINITION. The operand forms: what a step reads from its input ports (30_encoding.md R60, R76 to R79). -/

namespace Sys2Proof

variable {w : Nat}

/-- The same port values with the event word `{op, data}` presented (R60). -/
def PortInput.withEvent (base : PortInput w) (op : BitVec 3) (data : Byte) : PortInput w :=
  { base with rst := false, evValid := true, evOp := op, evData := data }

/-- The same port values with no event presented (R63). -/
def PortInput.withIdle (base : PortInput w) : PortInput w :=
  { base with rst := false, evValid := false }

/-- The same port values with `rst = 1` and no event (30_encoding.md R82). -/
def PortInput.withReset (base : PortInput w) : PortInput w :=
  { base with rst := true, evValid := false }

/-- The same port values presenting an encoded operation; a codec operand is driven in an idle step. -/
def PortInput.withEncoded (base : PortInput w) : Encoded → PortInput w
  | .event ev => PortInput.withEvent base (EventWord.op ev) (EventWord.data ev)
  | .cdFrameIn v => { PortInput.withIdle base with cdFrameIn := v }
  | .rsChIn v => { PortInput.withIdle base with rsChIn := v }
  | .rst => PortInput.withReset base

namespace Machine

/-- TICK_DEC's operand: `ts_in` of the step (42_pipeline.md R135, 70_reset_and_hazards.md R185). -/
def timestampOperand (s : State w) : Timestamp w := s.port.tsIn

/-- DECODE's operand in a step: the 25 bytes of `cd_frame_in` (R77). -/
def frameOperand (p : PortInput w) : List Byte := frameBytes p.cdFrameIn

/-- RESCALE's operand in a step: the 16 lanes of `rs_ch_in` (R78). -/
def channelsOperand (p : PortInput w) : List Code := channelLanes p.rsChIn

/-- A step in which the environment presents nothing: `rst` and `ev_valid` are 0, and every other port, `ev_op` and `ev_data`
among them, carries a free value (log entries 2, 3). -/
def undrivenInput (pos : Nat) : PortInput w where
  rst := false
  evValid := false
  evOp := Config.freeEvOp pos
  evData := Config.freeEvData pos
  tsIn := Config.freeTimestamp w pos
  cdFrameIn := Config.freeFrameIn pos
  rsChIn := Config.freeChannelsIn pos

end Machine

end Sys2Proof
end

