-- ==== Sys2Proof/Machine/Ops.lean ====
section
/-! DEFINITION. The buffer primitives of 00_scope.md R9 and the named operations over the state that the meanings share. The block has no memory (20_memory.md R40) and takes no exception (60_exceptions.md R160), so there is no operation for either. -/

namespace Sys2Proof.Machine

variable {w : Nat}

/-- What `exec` answers, on a state with timestamps `w` bits wide. -/
abbrev Result (w : Nat := Config.tsW) := Host.Outcome (State w) Fault Refusal

/-- Goes on with the next state of an outcome; a fault or a refusal stays. -/
def andThen (r : Result w) (k : State w → Result w) : Result w :=
  match r with
  | .next s => k s
  | .fault f => .fault f
  | .refused x => .refused x

/-- `firstIndex(L, b)`: the least index that holds `b` (R9). -/
def firstIndex : List Byte → Byte → Option Nat
  | [], _ => none
  | x :: xs, b => if x = b then some 0 else (firstIndex xs b).map (· + 1)

/-- `dropPrefix(L, k)`: the list from index `k` on (R9). -/
def dropPrefix (l : List Byte) (k : Nat) : List Byte := l.drop k

/-- `L[i..j)` (R9). -/
def slice (l : List Byte) (i j : Nat) : List Byte := (l.take j).drop i

/-- The payload of a frame, bytes 1..22 (30_encoding.md R66). -/
def payload (f : List Byte) : List Byte :=
  slice f Config.payloadOfs (Config.payloadOfs + Config.payloadLen)

/-- Appends a byte unless the batch is full: tail drop (10_state.md R24, 42_pipeline.md R132). -/
def appendCapped (cap : Nat) (batch : List Byte) (d : Byte) : List Byte :=
  if batch.length < cap then batch ++ [d] else batch

/-- The messages of the step on the three message ports; a port given `none` carries no message (10_state.md R28). -/
def State.emit (s : State w) (fr raw : Option (List Byte)) (dec : Option (DecMessage w)) : State w :=
  { s with out := { s.out with fr := fr, raw := raw, dec := dec } }

/-- A step without a message. -/
def State.quiet (s : State w) : State w := s.emit none none none

/-- Every element of the block at its reset value (70_reset_and_hazards.md R180, 42_pipeline.md R137). -/
def State.clearBlock (s : State w) : State w :=
  { s with active := false, backlog := [], batch := [], slot := none }

/-- Starts a session; while one is active, what the parameter START_WHILE_ACTIVE says (42_pipeline.md R136, decision D15). -/
def State.startSession (policy : Config.StartPolicy) (s : State w) : State w :=
  if s.active then
    match policy with
    | .ignore => s
    | .restart => { s.clearBlock with active := true }
  else { s with active := true }

/-- Shows a result on the DECODE port (30_encoding.md R77). -/
def State.showDecode (s : State w) (r : Except FormatError ChannelSet) : State w :=
  { s with out := { s.out with cd := some r } }

/-- Shows a result on the RESCALE port (30_encoding.md R78). -/
def State.showRescale (s : State w) (r : Except ShapeError PulseWidths) : State w :=
  { s with out := { s.out with rs := some r } }

/-- Marks the run refused (30_encoding.md R64). -/
def State.markRefused (s : State w) : State w := { s with runRefused := true }

/-- The port values of the coming step: the oldest input, or an undriven step where none is listed (log entry 2). -/
def State.nextInput (s : State w) : PortInput w := s.inputs.headD (undrivenInput s.pos)

/-- Takes the oldest input off the list. -/
def State.dropInput (s : State w) : State w := { s with inputs := s.inputs.tail }

/-- Puts port values at the front of the list, as those of the very next step. -/
def State.pushInput (s : State w) (p : PortInput w) : State w := { s with inputs := p :: s.inputs }

/-- The step's port values stand on the ports and the position advances by one (10_state.md R31). -/
def State.present (s : State w) (p : PortInput w) : State w := { s with port := p, pos := s.pos + 1 }

end Sys2Proof.Machine
end

