-- ==== Sys2Proof/Machine/Codec.lean ====
section
/-! DEFINITION. The ChannelCodec: unpacker, DECODE, rescaler, RESCALE, and Pack (40_codec.md). -/

namespace Sys2Proof.Machine

variable {w : Nat}

/-- Payload bit `b`: bit `b mod 8` of payload byte `b div 8`, 0 past the payload (R91, 30_encoding.md R67). -/
def payloadBit (p : List Byte) (b : Nat) : Nat :=
  if b / 8 < Config.payloadLen then ((p.getD (b / 8) 0).toNat >>> (b % 8)) % 2 else 0

/-- Channel `i`, built bit by bit from payload bits `11i` to `11i+10` (R91, 30_encoding.md R68). -/
def unpackCode (p : List Byte) (i : Nat) : Code :=
  BitVec.ofNat Config.chW
    ((List.range Config.chW).foldl (fun c j => c ||| payloadBit p (Config.chW * i + j) <<< j) 0)

/-- `Unpack(p)`: the ChannelSet of a 22-byte payload (R91). -/
def unpack (p : List Byte) : ChannelSet :=
  (List.range Config.nch).map (unpackCode p)

/-- Payload byte `k` as a number. -/
def payloadByte (p : List Byte) (k : Nat) : Nat := (p.getD k 0).toNat

/-- The channel-to-byte map of 30_encoding.md R69, written out: the same codes by byte masks and shifts. -/
def channelTable (p : List Byte) : List Nat :=
  let b := payloadByte p
  [ b 0 ||| (b 1 &&& 0x07) <<< 8,
    b 1 >>> 3 ||| (b 2 &&& 0x3F) <<< 5,
    b 2 >>> 6 ||| b 3 <<< 2 ||| (b 4 &&& 0x01) <<< 10,
    b 4 >>> 1 ||| (b 5 &&& 0x0F) <<< 7,
    b 5 >>> 4 ||| (b 6 &&& 0x7F) <<< 4,
    b 6 >>> 7 ||| b 7 <<< 1 ||| (b 8 &&& 0x03) <<< 9,
    b 8 >>> 2 ||| (b 9 &&& 0x1F) <<< 6,
    b 9 >>> 5 ||| b 10 <<< 3,
    b 11 ||| (b 12 &&& 0x07) <<< 8,
    b 12 >>> 3 ||| (b 13 &&& 0x3F) <<< 5,
    b 13 >>> 6 ||| b 14 <<< 2 ||| (b 15 &&& 0x01) <<< 10,
    b 15 >>> 1 ||| (b 16 &&& 0x0F) <<< 7,
    b 16 >>> 4 ||| (b 17 &&& 0x7F) <<< 4,
    b 17 >>> 7 ||| b 18 <<< 1 ||| (b 19 &&& 0x03) <<< 9,
    b 19 >>> 2 ||| (b 20 &&& 0x1F) <<< 6,
    b 20 >>> 5 ||| b 21 <<< 3 ]

/-- `Pack(c)`: the 22-byte payload of a ChannelSet (R100). -/
def pack (c : ChannelSet) : List Byte :=
  unpackWords 8 Config.payloadLen (packWords c)

/-- The byte at an index, 0 past the end. -/
def byteAt (f : List Byte) (k : Nat) : Byte := f.getD k 0

/-- Frame shape: 25 bytes with both markers (R93, 30_encoding.md R66). -/
def frameShape (f : List Byte) : Bool :=
  f.length == Config.packetLength && byteAt f 0 == Config.startMarker && byteAt f 24 == Config.endMarker

/-- `Decode(f)`: the ChannelSet, or FormatError with the offending frame (R92, R93). -/
def decodeFrame (f : List Byte) : Except FormatError ChannelSet :=
  if frameShape f then .ok (unpack (payload f)) else .error ⟨f⟩

/-- `Rescale1(v)` on integers, exactly as R95 writes it. -/
def rescaleInt (v : Int) : Int :=
  let n := v - Config.pwInLo
  if n ≤ 0 then Config.pwMin
  else min Config.pwMax (Config.pwMin + (2 * Config.pwOutSpan * n + Config.pwInSpan) / (2 * Config.pwInSpan))

/-- `Rescale1` on a code (R95); the result fits 11 bits (R72, R99). -/
def rescale1 (v : Code) : PulseWidth :=
  BitVec.ofInt 11 (rescaleInt v.toNat)

/-- `RescaleAll(c)`: sixteen pulse widths, or ShapeError with the count (R96, R97). -/
def rescaleAll (c : List Code) : Except ShapeError PulseWidths :=
  if c.length = Config.nch then .ok (c.map rescale1) else .error ⟨c.length⟩

/-- DECODE: shows the result on its port, nothing else (R90, R92). -/
def execDecode (f : List Byte) (s : State w) : Result w :=
  .next (s.showDecode (decodeFrame f))

/-- RESCALE: shows the result on its port, nothing else (R90, R96). -/
def execRescale (c : List Code) (s : State w) : Result w :=
  .next (s.showRescale (rescaleAll c))

end Sys2Proof.Machine
end

