-- ==== Sys2Proof/Machine/Framer.lean ====
section
/-! DEFINITION. The FrameFramer: one framer step per byte, and its states as views of the Backlog (41_framer.md). -/

namespace Sys2Proof.Machine

/-- The decision on 25 bytes: the Backlog left and the frame emitted (R111, steps 2a to 2e). -/
def framerDecide (b : List Byte) : List Byte × Option (List Byte) :=
  match firstIndex b Config.startMarker with
  | none => ([], none)
  | some 0 =>
    if b.getD 24 0 = Config.endMarker then
      (dropPrefix b Config.packetLength, some (slice b 0 Config.packetLength))
    else (dropPrefix b 1, none)
  | some k => (dropPrefix b k, none)

/-- `FramerStep`: appends the byte and decides when 25 bytes are held (R111). -/
def framerStep (backlog : List Byte) (d : Byte) : List Byte × Option (List Byte) :=
  let b := backlog ++ [d]
  if b.length = Config.packetLength then framerDecide b else (b, none)

/-- The framer's states (10_state.md R26). -/
inductive FramerView where
  | seekingStart
  | haveCandidate
  | validating
deriving DecidableEq, Repr

/-- The framer's state as a view of the Backlog (10_state.md R26); `none` for a Backlog no step holds. -/
def framerView (b : List Byte) : Option FramerView :=
  if b.head? = some Config.startMarker then
    if b.length < Config.packetLength then some .haveCandidate
    else if b.length = Config.packetLength then some .validating
    else none
  else some .seekingStart

end Sys2Proof.Machine
end

