-- ==== Sys2Proof/Machine/Pipeline.lean ====
section
/-! DEFINITION. The IngestionPipeline: the meaning of every event and of reset (42_pipeline.md, 70_reset_and_hazards.md R180). -/

namespace Sys2Proof.Machine

variable {w : Nat}

/-- NOP: no state change, no message (R131). -/
def execNop (s : State w) : Result w := .next s.quiet

/-- A byte of an active session: the batch with tail drop, the framer, and the slot and `fr` when a frame completes (R132).
The capacity is a parameter (decision D9). -/
def ingestByte (cap : Nat) (d : Byte) (s : State w) : State w :=
  let r := framerStep s.backlog d
  let s1 := { s with batch := appendCapped cap s.batch d, backlog := r.1 }
  match r.2 with
  | some f => { s1 with slot := some (unpack (payload f)) }.emit (some f) none none
  | none => s1.quiet

/-- BYTE under given parameters: ingested while a session is active (R132), discarded otherwise (R133). -/
def byteWith (c : Config.Params) (d : Byte) (s : State w) : Result w :=
  if s.active then .next (ingestByte c.rawCap d s) else .next s.quiet

/-- BYTE of this hardware (R132, R133). -/
def execByte (d : Byte) (s : State w) : Result w := byteWith Config.hardware d s

/-- TICK_RAW: publishes and clears a batch that is not empty, in an active session (R134). -/
def execTickRaw (s : State w) : Result w :=
  if s.active ∧ s.batch ≠ [] then .next ({ s with batch := [] }.emit none (some s.batch) none)
  else .next s.quiet

/-- The decoded feed message of a ChannelSet: codes zero-extended to 16 bits, with the timestamp (R135, 30_encoding.md R75). -/
def decMessage (c : ChannelSet) (ts : Timestamp w) : DecMessage w :=
  ⟨c.map (BitVec.setWidth 16), ts⟩

/-- TICK_DEC: publishes and clears a full slot, in an active session (R135). -/
def execTickDec (s : State w) : Result w :=
  match s.active, s.slot with
  | true, some c => .next ({ s with slot := none }.emit none none (some (decMessage c (timestampOperand s))))
  | _, _ => .next s.quiet

/-- START under given parameters (R136, decision D15). -/
def startWith (c : Config.Params) (s : State w) : Result w := .next (s.startSession c.startWhileActive).quiet

/-- START of this hardware (R136). -/
def execStart (s : State w) : Result w := startWith Config.hardware s

/-- STOP: all four elements cleared, nothing flushed (R137). -/
def execStop (s : State w) : Result w := .next s.clearBlock.quiet

/-- RESERVED: the hardware's effect, no state change and no message, and the run marked refused (R138, 30_encoding.md R64;
log entry 1). -/
def execReserved (_op : BitVec 3) (s : State w) : Result w := .next s.markRefused.quiet

/-- RESET: all four elements at their reset values, no message (70_reset_and_hazards.md R180). -/
def execReset (s : State w) : Result w := .next s.clearBlock.quiet

end Sys2Proof.Machine
end

