-- ==== Sys2Proof/Machine/Dispatch.lean ====
section
/-! DEFINITION. One arm per operation. -/

namespace Sys2Proof.Machine

def exec (i : Instr) (s : State) : Host.Outcome State Fault Refusal :=
  match i with
  | .nop => Sys2Proof.Machine.execNop s
  | .byte d => Sys2Proof.Machine.execByte d s
  | .tickRaw => Sys2Proof.Machine.execTickRaw s
  | .tickDec => Sys2Proof.Machine.execTickDec s
  | .start => Sys2Proof.Machine.execStart s
  | .stop => Sys2Proof.Machine.execStop s
  | .reserved op => Sys2Proof.Machine.execReserved op s
  | .decode f => Sys2Proof.Machine.execDecode f s
  | .rescale c => Sys2Proof.Machine.execRescale c s
  | .reset => Sys2Proof.Machine.execReset s

end Sys2Proof.Machine
end

