-- ==== Sys2Proof/Machine/Advance.lean ====
section
/-! DEFINITION. One step on given port values: both codec ports and the event of the step (42_pipeline.md R130, 40_codec.md R90). -/

namespace Sys2Proof.Machine

variable {w : Nat}

/-- One step on the port values `p` with the meanings `ex`: the values stand on the ports, DECODE and RESCALE answer from their
inputs as they do in every step (R90), and the event of the step (or reset, or idle) takes its effect (R130). The three write
different parts of the state, so their order does not show (log entry 10). -/
def advanceBy (ex : Instr → State w → Result w) (p : PortInput w) (s : State w) : Result w :=
  andThen (ex (.decode (frameOperand p)) (s.present p)) fun s1 =>
    andThen (ex (.rescale (channelsOperand p)) s1) fun s2 =>
      ex p.instr s2

/-- One step of this hardware on the port values `p`. -/
def advance (p : PortInput) (s : State) : Result := advanceBy exec p s

/-- A step takes the oldest input off the list and advances on it. -/
def stepOnce (s : State) : Result := advance s.nextInput s.dropInput

/-- The state whose very next step presents a table word: an event word, or the value of a codec port in an idle step. The
ports the word does not drive carry free values (log entry 9). -/
def fetchWord (s : State) (nbits word : Nat) : State :=
  let base := undrivenInput s.pos
  if nbits = 200 then s.pushInput (base.withEncoded (.cdFrameIn (BitVec.ofNat 200 word)))
  else if nbits = 176 then s.pushInput (base.withEncoded (.rsChIn (BitVec.ofNat 176 word)))
  else s.pushInput (base.withEncoded (.event (BitVec.ofNat 11 word)))

end Sys2Proof.Machine
end

