-- ==== Sys2Proof/Machine/Step.lean ====
section
/-! DEFINITION. The step of the machine (42_pipeline.md R130). -/

namespace Sys2Proof.Machine

/-- One step: the environment's next port values, or an undriven idle step where none is listed. -/
def step (s : State) : Host.Outcome State Fault Refusal := stepOnce s

/-- The state whose very next step runs the table word `w` (log entry 9). -/
def State.withFetchWord (s : State) (nbits w : Nat) : State := fetchWord s nbits w

end Sys2Proof.Machine
end

