-- ==== Sys2Proof/Machine/Environment.lean ====
section
/-! DEFINITION. The environment's side: runs over its inputs, what they show, the boot sequence, and the duties of the environment over timed inputs (70_reset_and_hazards.md R182, R186, R188; 60_exceptions.md R164). -/

namespace Sys2Proof.Machine

variable {w : Nat}

/-- The run over a list of port values, one step each, in order (20_memory.md R50). -/
def runInputs : List PortInput → State → Result
  | [], s => .next s
  | p :: ps, s => andThen (advance p s) (runInputs ps)

/-- The outputs of each step of a run, in step order (R50). -/
def trace : List PortInput → State → List Outputs
  | [], _ => []
  | p :: ps, s =>
    match advance p s with
    | .next t => t.out :: trace ps t
    | _ => []

/-- The frames shown on `fr` in a run, in order (30_encoding.md R73). -/
def framesOf (os : List Outputs) : List (List Byte) := os.filterMap (·.fr)

/-- The raw messages of a run, in order (30_encoding.md R74). -/
def rawsOf (os : List Outputs) : List (List Byte) := os.filterMap (·.raw)

/-- The decoded messages of a run, in order (30_encoding.md R75). -/
def decsOf (os : List Outputs) : List DecMessage := os.filterMap (·.dec)

/-- The received bytes among the events of a run. -/
def bytesOf (is : List Instr) : List Byte :=
  is.filterMap fun i => match i with
    | .byte d => some d
    | _ => none

/-- The bytes a batch of the given capacity takes, when it holds `n` bytes at the start and every TICK_RAW empties it
(42_pipeline.md R132, R134, R141). -/
def acceptedBytes (cap : Nat) : Nat → List Instr → List Byte
  | _, [] => []
  | n, .byte d :: is => if n < cap then d :: acceptedBytes cap (n + 1) is else acceptedBytes cap n is
  | _, .tickRaw :: is => acceptedBytes cap 0 is
  | n, .nop :: is => acceptedBytes cap n is
  | n, .tickDec :: is => acceptedBytes cap n is
  | n, .start :: is => acceptedBytes cap n is
  | n, .stop :: is => acceptedBytes cap n is
  | n, .reserved _ :: is => acceptedBytes cap n is
  | n, .decode _ :: is => acceptedBytes cap n is
  | n, .rescale _ :: is => acceptedBytes cap n is
  | n, .reset :: is => acceptedBytes cap n is

/-- No interval between TICK_RAWs collects more than the capacity (R141). -/
def withinCap (cap : Nat) : Nat → List Instr → Bool
  | n, [] => n ≤ cap
  | n, .byte _ :: is => withinCap cap (n + 1) is
  | n, .tickRaw :: is => n ≤ cap && withinCap cap 0 is
  | n, .nop :: is => withinCap cap n is
  | n, .tickDec :: is => withinCap cap n is
  | n, .start :: is => withinCap cap n is
  | n, .stop :: is => withinCap cap n is
  | n, .reserved _ :: is => withinCap cap n is
  | n, .decode _ :: is => withinCap cap n is
  | n, .rescale _ :: is => withinCap cap n is
  | n, .reset :: is => withinCap cap n is

/-- The boot sequence on the event port: `rst` for one step, then START (R182). -/
def bootInputs (base : PortInput) : List PortInput := [base.withReset, base.withEvent 4 0]

/-- What the controller presents after an error: STOP for a transport failure, nothing for the others (60_exceptions.md
R162, R163, R164). -/
def errorResponse : CoreError → List Instr
  | .transportError => [.stop]
  | .formatError _ => []
  | .shapeError _ => []

/-! Timed inputs: the environment's time of each step in microseconds (log entry 11). -/

/-- Port values with the time at which they are presented. -/
abbrev TimedInputs (w : Nat := Config.tsW) := List (Nat × PortInput w)

/-- The times of the steps whose event is one of those chosen. -/
def timesOf (chosen : Instr → Bool) (tr : TimedInputs w) : List Nat :=
  (tr.filter fun x => chosen x.2.instr).map Prod.fst

/-- Consecutive times are no less than `period` apart (R186). -/
def spacedBy (period : Nat) : List Nat → Bool
  | a :: b :: rest => a + period ≤ b && spacedBy period (b :: rest)
  | _ => true

/-- Whether an event is a BYTE. -/
def isByte : Instr → Bool
  | .byte _ => true
  | _ => false

/-- The duty of the raw tick generator: two consecutive TICK_RAWs no less than T_RAW apart (R186). -/
def rawTickDuty (c : Config.Params) (tr : TimedInputs w) : Bool := spacedBy c.tRawMicros (timesOf (· == .tickRaw) tr)

/-- The duty of the decoded tick generator: two consecutive TICK_DECs no less than T_DEC apart (R186). -/
def decTickDuty (c : Config.Params) (tr : TimedInputs w) : Bool := spacedBy c.tDecMicros (timesOf (· == .tickDec) tr)

/-- The line's limit: two consecutive BYTEs no less than one byte time apart (R188). -/
def lineRate (tr : TimedInputs w) : Bool := spacedBy Config.byteMicros (timesOf isByte tr)

/-- The times of the steps of a run that show a message the choice accepts. -/
def messageTimes (shows : Outputs → Bool) (tr : TimedInputs) (s : State) : List Nat :=
  (((tr.map Prod.fst).zip (trace (tr.map Prod.snd) s)).filter fun x => shows x.2).map Prod.fst

/-! Endless runs and the fairness premise of liveness claims (70_reset_and_hazards.md R193; log entry 16). -/

/-- The port values of every step of an endless run. It is an environment, not a part of State. -/
abbrev InputStream := Nat → PortInput

/-- The state before step `n` of the endless run over a stream. -/
def streamRun (env : InputStream) (s : State) : Nat → Result
  | 0 => .next s
  | n + 1 => andThen (streamRun env s n) (advance (env n))

/-- The environment delivers a tick infinitely often while the session is active: after every step there is that tick, or a
step that finds no session (R193). -/
def FairTick (tick : Instr) (env : InputStream) (s : State) : Prop :=
  ∀ n, ∃ m, n ≤ m ∧ ((env m).instr = tick ∨ ∃ u, streamRun env s m = .next u ∧ u.active = false)

/-- The premise of a claim that every completed frame is eventually published or superseded (R193). -/
def FairDecTicks (env : InputStream) (s : State) : Prop := FairTick .tickDec env s

/-- The premise of a claim that every accepted raw byte is eventually published (R193). -/
def FairRawTicks (env : InputStream) (s : State) : Prop := FairTick .tickRaw env s

/-- Some step of the run from step `n` on leaves a state with the property; the step and its port values are given to it. -/
def EventuallyFrom (env : InputStream) (s : State) (n : Nat) (P : PortInput → State → Prop) : Prop :=
  ∃ m v, n ≤ m ∧ streamRun env s (m + 1) = .next v ∧ P (env m) v

end Sys2Proof.Machine
end

