-- ==== Sys2Proof/Machine/Flags.lean ====
section
/-! DEFINITION. The one-bit status outputs. The block has no condition code and no flag register (10_state.md R30); its only status bits are the session output, the valid bit of each message port and the error bit of DECODE (30_encoding.md R80). -/

namespace Sys2Proof.Machine

variable {w : Nat}

/-- `sess_active`, equal to `s.active` at all times (10_state.md R28). -/
def sessActive (s : State w) : Bool := s.active

/-- `fr_valid`: the step emitted a frame (30_encoding.md R73). -/
def frValid (s : State w) : Bool := s.out.fr.isSome

/-- `raw_valid`: the step published the raw batch (R74). -/
def rawValid (s : State w) : Bool := s.out.raw.isSome

/-- `dec_valid`: the step published a decoded frame (R75). -/
def decValid (s : State w) : Bool := s.out.dec.isSome

/-- `cd_fmt_err`: DECODE answers FormatError (R77, 40_codec.md R92); free before any step. -/
def cdFmtErr (s : State w) : Bool :=
  match s.out.cd with
  | some (.ok _) => false
  | some (.error _) => true
  | none => Config.freeCdFmtErr s.pos

end Sys2Proof.Machine
end

