-- ==== Sys2Proof/Machine/Ports.lean ====
section
/-! DEFINITION. The wide output ports as wires (30_encoding.md R71 to R75, R80). A port without a message carries a free value (93_implementation_defined.md U6). -/

namespace Sys2Proof.Machine

variable {w : Nat}

/-- `fr_data[199:0]`: byte `k` of the frame at `[8k+7:8k]` (R73). -/
def frData (s : State w) : BitVec 200 :=
  match s.out.fr with
  | some f => BitVec.ofNat 200 (packWords f)
  | none => Config.freeFrData s.pos

/-- `raw_len` as `n` wires: the byte count of the raw message (R74). -/
def rawLenWires (n : Nat) (s : State w) : BitVec n :=
  match s.out.raw with
  | some b => BitVec.ofNat n b.length
  | none => Config.freeRawLen n s.pos

/-- `raw_data` as `n` wires: byte `k` at `[8k+7:8k]`, 0x00 from the byte count on (R74, U5). -/
def rawDataWires (n : Nat) (s : State w) : BitVec n :=
  match s.out.raw with
  | some b => BitVec.ofNat n (packWords b)
  | none => Config.freeRawData n s.pos

/-- `raw_len` of this hardware, RAWLEN_W = 9 wires. -/
def rawLen (s : State w) : BitVec Config.rawLenW := rawLenWires Config.rawLenW s

/-- `raw_data` of this hardware, 8 x RAW_CAP = 2048 wires. -/
def rawData (s : State w) : BitVec 2048 := rawDataWires 2048 s

/-- `dec_ch`: channel `i` at `[16i+15:16i]` (R75). -/
def decCh (s : State w) : BitVec 256 :=
  match s.out.dec with
  | some m => BitVec.ofNat 256 (packWords m.channels)
  | none => Config.freeDecCh s.pos

/-- `dec_ts`: the timestamp of the message (R75). -/
def decTs (s : State w) : Timestamp w :=
  match s.out.dec with
  | some m => m.ts
  | none => Config.freeDecTs w s.pos

/-- `cd_ch_out`: channel `i` at `[11i+10:11i]` (R71). Under FormatError it still shows the payload bits of the candidate, which
carry no meaning (40_codec.md R92, decision D12; log entry 6). -/
def cdChOut (s : State w) : BitVec 176 :=
  match s.out.cd with
  | some (.ok c) => BitVec.ofNat 176 (packWords c)
  | some (.error e) => BitVec.ofNat 176 (packWords (payload e.frame))
  | none => Config.freeCdChOut s.pos

/-- `rs_pw_out`: pulse width `i` at `[11i+10:11i]` (R72). -/
def rsPwOut (s : State w) : BitVec 176 :=
  match s.out.rs with
  | some (.ok c) => BitVec.ofNat 176 (packWords c)
  | _ => Config.freeRsPwOut s.pos

end Sys2Proof.Machine
end

