-- ==== Sys2Proof/Machine/Script.lean ====
section
/-! DEFINITION. The event script: its lines, their text, and the assembler (30_encoding.md R82, R83). -/

namespace Sys2Proof.Machine

variable {w : Nat}

/-- One line of an event script (R82) or a pseudo-instruction (R83), with the numbers as written. -/
inductive ScriptLine where
  | nop
  | byte (b : Nat)
  | tickRaw
  | tickDec (ts : Option Nat)
  | start
  | stop
  | reset
  | idle
  | bytes (bs : List Nat)
  | chunk (bs : List Nat)
  | rep (n b : Nat)
  | frame (p : List Nat) (f : Nat)
  | frameCh (c : List Nat) (f : Nat)
deriving DecidableEq, Repr

/-- Why the assembler refuses a line (R82; the operand counts are those of R83). -/
inductive AsmError where
  /-- A byte outside 0..255. -/
  | byteOutOfRange
  /-- A channel code outside 0..2047. -/
  | codeOutOfRange
  /-- `tick.dec` without a timestamp: refused, not defaulted. -/
  | missingTimestamp
  /-- A timestamp of 2^TS_W or more. -/
  | timestampOutOfRange
  /-- A reserved op. -/
  | reservedOp
  /-- A wrong number of operands. -/
  | operandCount
  /-- A word that is no line of the script. -/
  | unknownLine
  /-- Text that is no number. -/
  | badNumber
deriving DecidableEq, Repr

/-- A number that must fit a byte. -/
def asmByte (b : Nat) : Except AsmError Byte :=
  if b < 256 then .ok (BitVec.ofNat 8 b) else .error .byteOutOfRange

/-- A number that must fit a channel code. -/
def asmCode (c : Nat) : Except AsmError Code :=
  if c ≤ Config.chMax then .ok (BitVec.ofNat Config.chW c) else .error .codeOutOfRange

/-- The port values of one BYTE event (R82). -/
def byteInput (base : PortInput w) (b : Byte) : PortInput w := base.withEvent 1 b

/-- One BYTE event for each number, in order. -/
def asmBytes (base : PortInput w) (bs : List Nat) : Except AsmError (List (PortInput w)) :=
  bs.mapM fun b => (asmByte b).map (byteInput base)

/-- The 25 bytes of a frame with the payload and flag byte given (R83, R66). -/
def frameOf (p : List Byte) (flag : Byte) : List Byte :=
  Config.startMarker :: p ++ [flag, Config.endMarker]

/-- The steps of a line, for a block with timestamps of `w` bits, on port values whose other ports are as in `base` (R82, R83). -/
def assembleLine (base : PortInput w) : ScriptLine → Except AsmError (List (PortInput w))
  | .nop => .ok [base.withEvent 0 0]
  | .byte b => asmBytes base [b]
  | .tickRaw => .ok [base.withEvent 2 0]
  | .tickDec none => .error .missingTimestamp
  | .tickDec (some ts) =>
    if ts < 2 ^ w then .ok [{ base.withEvent 3 0 with tsIn := BitVec.ofNat w ts }]
    else .error .timestampOutOfRange
  | .start => .ok [base.withEvent 4 0]
  | .stop => .ok [base.withEvent 5 0]
  | .reset => .ok [base.withReset]
  | .idle => .ok [base.withIdle]
  | .bytes bs => if bs = [] then .error .operandCount else asmBytes base bs
  | .chunk bs => if bs = [] then .error .operandCount else asmBytes base bs
  | .rep n b => asmBytes base (List.replicate n b)
  | .frame p f =>
    if p.length = Config.payloadLen then
      (p.mapM asmByte).bind fun ps => (asmByte f).map fun fl => (frameOf ps fl).map (byteInput base)
    else .error .operandCount
  | .frameCh c f =>
    if c.length = Config.nch then
      (c.mapM asmCode).bind fun cs => (asmByte f).map fun fl => (frameOf (pack cs) fl).map (byteInput base)
    else .error .operandCount

/-- The steps of a script, line after line. -/
def assemble (base : PortInput w) (ls : List ScriptLine) : Except AsmError (List (PortInput w)) :=
  (ls.mapM (assembleLine base)).map List.flatten

/-- The event word of an op and data field, refused for a reserved op (R82). -/
def assembleWord (op : BitVec 3) (data : Byte) : Except AsmError EventWord :=
  if op = 6 ∨ op = 7 then .error .reservedOp else .ok (eventWord op data)

/-! The text of a line (log entry 12 says what R82 leaves open). -/

/-- Blanks between words. -/
def isBlank (c : Char) : Bool := c = ' ' || c = '\t' || c = '\r'

/-- A line without its comment (R82: `;` starts a comment). -/
def uncomment (l : List Char) : List Char := l.takeWhile (· ≠ ';')

/-- Text without blanks at either end. -/
def trimBlanks (l : List Char) : List Char :=
  ((l.dropWhile isBlank).reverse.dropWhile isBlank).reverse

/-- Text cut at every occurrence of a character. -/
def cutAt (c : Char) : List Char → List (List Char)
  | [] => [[]]
  | x :: xs =>
    if x = c then [] :: cutAt c xs
    else
      match cutAt c xs with
      | [] => [[x]]
      | w :: ws => (x :: w) :: ws

/-- The value of a digit. -/
def digitValue (c : Char) : Option Nat :=
  if '0' ≤ c ∧ c ≤ '9' then some (c.toNat - 48)
  else if 'a' ≤ c ∧ c ≤ 'f' then some (c.toNat - 87)
  else if 'A' ≤ c ∧ c ≤ 'F' then some (c.toNat - 55)
  else none

/-- The number that digits write in a base, most significant digit first; at least one digit. -/
def readDigits (base : Nat) (ds : List Char) : Except AsmError Nat :=
  if ds = [] then .error .badNumber
  else
    ds.foldlM (fun n c =>
      match digitValue c with
      | some v => if v < base then .ok (n * base + v) else .error .badNumber
      | none => .error .badNumber) 0

/-- A number, decimal or `0x` hexadecimal (R82). -/
def readNumber (w : List Char) : Except AsmError Nat :=
  match trimBlanks w with
  | '0' :: 'x' :: ds => readDigits 16 ds
  | ds => readDigits 10 ds

/-- Numbers separated by commas; blank text holds none. -/
def readNumbers (l : List Char) : Except AsmError (List Nat) :=
  if trimBlanks l = [] then .ok [] else (cutAt ',' l).mapM readNumber

/-- The text between brackets (R83, `chunk`). -/
def unbracket (l : List Char) : Except AsmError (List Char) :=
  match trimBlanks l with
  | '[' :: rest =>
    match rest.reverse with
    | ']' :: inner => .ok inner.reverse
    | _ => .error .operandCount
  | _ => .error .operandCount

/-- Numbers of which the last one is the flag byte. -/
def splitFlag (ns : List Nat) (mk : List Nat → Nat → ScriptLine) : Except AsmError ScriptLine :=
  match ns.getLast? with
  | some f => .ok (mk ns.dropLast f)
  | none => .error .operandCount

/-- The line that a word and the numbers after it write. -/
def lineOf (word : String) (ns : List Nat) : Except AsmError ScriptLine :=
  match word, ns with
  | "nop", [] => .ok .nop
  | "byte", [b] => .ok (.byte b)
  | "tick.raw", [] => .ok .tickRaw
  | "tick.dec", [] => .ok (.tickDec none)
  | "tick.dec", [ts] => .ok (.tickDec (some ts))
  | "start", [] => .ok .start
  | "stop", [] => .ok .stop
  | "reset", [] => .ok .reset
  | "idle", [] => .ok .idle
  | "bytes", ns => .ok (.bytes ns)
  | "chunk", ns => .ok (.chunk ns)
  | "rep", [n, b] => .ok (.rep n b)
  | "frame", ns => splitFlag ns .frame
  | "frame.ch", ns => splitFlag ns .frameCh
  | w, _ => .error (if w ∈ ["nop", "byte", "tick.raw", "tick.dec", "start", "stop", "reset", "idle", "rep"] then .operandCount else .unknownLine)

/-- One line of text: nothing where it is blank or a comment (R82). -/
def parseLine (l : List Char) : Except AsmError (Option ScriptLine) :=
  let t := trimBlanks (uncomment l)
  if t = [] then .ok none
  else
    let word := String.ofList (t.takeWhile fun c => !isBlank c)
    let rest := t.dropWhile fun c => !isBlank c
    let operands := if word = "chunk" then unbracket rest else .ok rest
    operands.bind fun o => (readNumbers o).bind fun ns => (lineOf word ns).map some

/-- A script's text to its lines, one a line (R82). -/
def parseScript (text : List Char) : Except AsmError (List ScriptLine) :=
  ((cutAt '\n' text).mapM parseLine).map (·.filterMap id)

/-- A script's text to the port values of its steps (R82, R83). -/
def assembleText (base : PortInput w) (text : List Char) : Except AsmError (List (PortInput w)) :=
  (parseScript text).bind (assemble base)

end Sys2Proof.Machine
end

