-- ==== Sys2Proof/Machine/Software.lean ====
section
/-! DEFINITION. The software contracts the spec keeps beside the hardware: `Feed` over chunks, the scan form of the framer, and `onBytes` over a chunk (41_framer.md R120, R123; 42_pipeline.md R143). -/

namespace Sys2Proof.Machine

variable {w : Nat}

/-- The loop of `Feed`: the Backlog left and the frames returned, oldest first (R120). Every turn that goes on removes at least
one byte, so `b.length` turns suffice. -/
def feedLoop : Nat → List Byte → List Byte × List (List Byte)
  | 0, b => (b, [])
  | turns + 1, b =>
    if b.length < Config.packetLength then (b, [])
    else
      match firstIndex b Config.startMarker with
      | none => ([], [])
      | some k =>
        let b1 := dropPrefix b k
        if b1.length < Config.packetLength then (b1, [])
        else if b1.getD 24 0 = Config.endMarker then
          let r := feedLoop turns (dropPrefix b1 Config.packetLength)
          (r.1, slice b1 0 Config.packetLength :: r.2)
        else feedLoop turns (dropPrefix b1 1)

/-- `Feed(s, bytes)`: the Backlog after a chunk of any length and the frames it returns (R120). -/
def feed (backlog chunk : List Byte) : List Byte × List (List Byte) :=
  feedLoop (backlog ++ chunk).length (backlog ++ chunk)

/-- `Feed` over a stream cut into chunks: the last Backlog and all frames in order (R120). -/
def feedChunks : List Byte → List (List Byte) → List Byte × List (List Byte)
  | b, [] => (b, [])
  | b, c :: cs =>
    let r := feed b c
    let t := feedChunks r.1 cs
    (t.1, r.2 ++ t.2)

/-- The scan form of the framer over a whole stream: the frames and the rest `S[p..)` at the end. Every turn that goes on
removes at least one byte, so as many turns as the stream has bytes suffice (R123). -/
def scanLoop : Nat → List Byte → List (List Byte) × List Byte
  | 0, l => ([], l)
  | turns + 1, l =>
    if l.length < Config.packetLength then ([], l)
    else if l.getD 0 0 = Config.startMarker ∧ l.getD 24 0 = Config.endMarker then
      let r := scanLoop turns (dropPrefix l Config.packetLength)
      (slice l 0 Config.packetLength :: r.1, r.2)
    else scanLoop turns (dropPrefix l 1)

/-- The frames of a stream by the scan form, and the bytes the scan has not passed (R123). -/
def scanStream (stream : List Byte) : List (List Byte) × List Byte :=
  scanLoop stream.length stream

/-- `onBytes(chunk)` of an active session: the chunk goes to the batch, byte by byte up to the capacity, and to `Feed`; the last
frame returned overwrites the slot (42_pipeline.md R132, R143). The frames are returned beside the state. -/
def onBytes (cap : Nat) (chunk : List Byte) (s : State w) : State w × List (List Byte) :=
  let r := feed s.backlog chunk
  ({ s with
      batch := chunk.foldl (appendCapped cap) s.batch
      backlog := r.1
      slot := match r.2.getLast? with
        | some f => some (unpack (payload f))
        | none => s.slot }, r.2)

end Sys2Proof.Machine
end

