-- ==== Sys2Proof/Safety.lean ====
section
/-! DEFINITION. What holds of every state between steps, and the terms the statements use. -/

namespace Sys2Proof.Machine

/-- A Frame: 25 bytes with both markers (00_scope.md R11, 30_encoding.md R66). -/
abbrev IsFrame (f : List Byte) : Prop :=
  f.length = 25 ∧ f[0]? = some 0x0F ∧ f[24]? = some 0x00

/-- The invariant of the block: the bounds of the buffers (10_state.md R23, R24), the shape of the slot (R25, 00_scope.md
R11), and empty buffers while no session is active (10_state.md R27). -/
abbrev State.Inv (s : State) : Prop :=
  s.backlog.length ≤ 24 ∧ s.batch.length ≤ 256 ∧ (∀ c ∈ s.slot, c.length = 16) ∧
    (s.active = false → s.backlog = [] ∧ s.batch = [] ∧ s.slot = none)

/-- The messages of a step have the form of 30_encoding.md R73, R74, R75. -/
abbrev Outputs.WellShaped (o : Outputs) : Prop :=
  (∀ f ∈ o.fr, IsFrame f) ∧ (∀ b ∈ o.raw, 1 ≤ b.length ∧ b.length ≤ 256) ∧
    (∀ m ∈ o.dec, m.channels.length = 16 ∧ ∀ x ∈ m.channels, x.toNat ≤ 2047)

/-- No message on any of the three message ports. -/
abbrev Outputs.NoMessage (o : Outputs) : Prop := o.fr = none ∧ o.raw = none ∧ o.dec = none

/-- The fields that only the step and the codec ports write: the environment's inputs and ports, the position, and the
results on the codec ports. -/
abbrev SamePorts (s t : State) : Prop :=
  t.inputs = s.inputs ∧ t.port = s.port ∧ t.pos = s.pos ∧ t.out.cd = s.out.cd ∧ t.out.rs = s.out.rs

/-- Everything that an event which is not reserved leaves alone beside the block: the ports and the mark of a refused run. -/
abbrev SameSurroundings (s t : State) : Prop := SamePorts s t ∧ t.runRefused = s.runRefused

/-- The Backlog from its first start marker on: what later frames can depend on (10_state.md R32). -/
def fromMarker (b : List Byte) : List Byte := b.dropWhile (· ≠ 0x0F)

/-- The event is not a reserved one (93_implementation_defined.md U2). -/
def notReserved : Instr → Bool
  | .reserved _ => false
  | _ => true

/-- The event neither ends nor resets the session, and is not reserved. -/
def keepsSession : Instr → Bool
  | .stop => false
  | .reset => false
  | .reserved _ => false
  | _ => true

/-- A safe run: it answers a next state and holds no reserved event word, so that it is not marked refused. -/
abbrev SafeRun (ps : List PortInput) (s : State) : Prop :=
  ∃ t, runInputs ps s = .next t ∧ t.runRefused = false

end Sys2Proof.Machine
end

