-- ==== Sys2Proof/Certificates/Slice0/Obligations.lean ====
section
/-! DEFINITION. The statements about the model, from the numbered rules of spec/. -/

open Sys2Proof Sys2Proof.Machine

/-! ## Reset and the session -/

/-- 10_state.md R33: the value of every state element after reset. -/
def Obligations.ResetStateHoldsResetValues : Prop :=
  State.reset.active = false ∧ State.reset.backlog = [] ∧ State.reset.batch = [] ∧ State.reset.slot = none ∧
    sessActive State.reset = false ∧ State.reset.out.NoMessage

/-- 70_reset_and_hazards.md R180, 30_encoding.md R79: with `rst = 1` every element takes its reset value, whatever event word
and timestamp stand on the ports, and there is no message. -/
def Obligations.ResetStepIgnoresEventAndClears : Prop :=
  ∀ (p : PortInput) (s : State), p.rst = true →
    ∃ t, advance p s = .next t ∧ t.active = false ∧ t.backlog = [] ∧ t.batch = [] ∧ t.slot = none ∧
      sessActive t = false ∧ t.out.NoMessage

/-- 70_reset_and_hazards.md R180: the operation RESET itself, with its frame. -/
def Obligations.ResetClearsBlockOnly : Prop :=
  ∀ s : State, ∃ t, exec .reset s = .next t ∧ t.active = false ∧ t.backlog = [] ∧ t.batch = [] ∧ t.slot = none ∧
    t.out.NoMessage ∧ SameSurroundings s t

/-- 42_pipeline.md R136, START_WHILE_ACTIVE = ignore (decision D15): START sets the flag and changes nothing else, whether a
session is active or not. -/
def Obligations.StartSetsFlagAndKeepsBuffers : Prop :=
  ∀ s : State, ∃ t, exec .start s = .next t ∧ t.active = true ∧ t.backlog = s.backlog ∧ t.batch = s.batch ∧
    t.slot = s.slot ∧ t.out.NoMessage ∧ SameSurroundings s t

/-- 42_pipeline.md R137: STOP clears all four elements and flushes nothing; while inactive, where R27 holds, it is a no-op on the
block. -/
def Obligations.StopClearsBlockAndIsIdempotent : Prop :=
  ∀ s : State, ∃ t, exec .stop s = .next t ∧ t.active = false ∧ t.backlog = [] ∧ t.batch = [] ∧ t.slot = none ∧
    t.out.NoMessage ∧ SameSurroundings s t ∧ (s.Inv → s.active = false → t.block = s.block)

/-- 70_reset_and_hazards.md R182, steps 1 and 4: one reset step and one START bring any state to an active session with empty
buffers. -/
def Obligations.BootReachesActiveEmptySession : Prop :=
  ∀ (base : PortInput) (s : State), ∃ t, runInputs (bootInputs base) s = .next t ∧
    t.block = ⟨true, [], [], none⟩ ∧ sessActive t = true

/-! ## Events -/

/-- 42_pipeline.md R131, 30_encoding.md R63: NOP changes nothing and shows no message; an idle step and a step with op 000,
whatever its data field, have that same effect. -/
def Obligations.NopAndIdleStepChangeNothing : Prop :=
  ∀ s : State, (∃ t, exec .nop s = .next t ∧ t.block = s.block ∧ t.out.NoMessage ∧ SameSurroundings s t) ∧
    ∀ p : PortInput, p.rst = false → (p.evValid = false ∨ p.evOp = 0) →
      ∃ t, advance p s = .next t ∧ t.block = s.block ∧ t.out.NoMessage ∧ sessActive t = sessActive s

/-- 42_pipeline.md R132, the batch: the byte is appended while fewer than RAW_CAP bytes are held and dropped from the raw feed
otherwise; `raw` and `dec` carry no message. -/
def Obligations.ByteAppendsToBatchUnlessFull : Prop :=
  ∀ (d : Byte) (s : State), s.active = true → ∃ t, exec (.byte d) s = .next t ∧ t.active = true ∧
    (s.batch.length < 256 → t.batch = s.batch ++ [d]) ∧ (256 ≤ s.batch.length → t.batch = s.batch) ∧
    t.out.raw = none ∧ t.out.dec = none ∧ SameSurroundings s t

/-- 41_framer.md R111, fewer than 25 bytes: the byte is appended to the Backlog, and no decision is taken. -/
def Obligations.ByteBelowPacketLengthOnlyAppends : Prop :=
  ∀ (d : Byte) (s : State), s.active = true → s.backlog.length < 24 → ∃ t, exec (.byte d) s = .next t ∧
    t.active = true ∧ t.backlog = s.backlog ++ [d] ∧ t.batch = (if s.batch.length < 256 then s.batch ++ [d] else s.batch) ∧
    t.slot = s.slot ∧ t.out.NoMessage ∧ SameSurroundings s t

/-- 41_framer.md R114: if no byte of the 25 is 0x0F, all 25 are discarded. -/
def Obligations.ByteWithoutMarkerDiscardsBacklog : Prop :=
  ∀ (d : Byte) (s : State), s.active = true → s.backlog.length = 24 → (∀ x ∈ s.backlog ++ [d], x ≠ 0x0F) →
    ∃ t, exec (.byte d) s = .next t ∧ t.active = true ∧ t.backlog = [] ∧
      t.batch = (if s.batch.length < 256 then s.batch ++ [d] else s.batch) ∧
      t.slot = s.slot ∧ t.out.NoMessage ∧ SameSurroundings s t

/-- 41_framer.md R113, R115: with the first 0x0F of the 25 bytes after `garbage`, `garbage` is dropped and the framer stops. -/
def Obligations.ByteResyncsToFirstMarker : Prop :=
  ∀ (d : Byte) (s : State) (garbage rest : List Byte), s.active = true → s.backlog.length = 24 →
    s.backlog ++ [d] = garbage ++ 0x0F :: rest → garbage ≠ [] → (∀ x ∈ garbage, x ≠ 0x0F) →
    ∃ t, exec (.byte d) s = .next t ∧ t.active = true ∧ t.backlog = 0x0F :: rest ∧ t.backlog.length < 25 ∧
      t.batch = (if s.batch.length < 256 then s.batch ++ [d] else s.batch) ∧
      t.slot = s.slot ∧ t.out.NoMessage ∧ SameSurroundings s t

/-- 41_framer.md R116, R119, 42_pipeline.md R132: 25 bytes with both markers are emitted and removed in the step that delivers
the last of them, and the slot takes their ChannelSet, whatever it held. -/
def Obligations.ByteCompletesFrame : Prop :=
  ∀ (d : Byte) (s : State), s.active = true → IsFrame (s.backlog ++ [d]) →
    ∃ t, exec (.byte d) s = .next t ∧ t.active = true ∧ t.backlog = [] ∧ t.out.fr = some (s.backlog ++ [d]) ∧
      t.slot = some (unpack (((s.backlog ++ [d]).drop 1).take 22)) ∧ t.out.raw = none ∧ t.out.dec = none ∧
      t.batch = (if s.batch.length < 256 then s.batch ++ [d] else s.batch) ∧ SameSurroundings s t

/-- 41_framer.md R117: with 0x0F at byte 0 and another byte than 0x00 at byte 24, exactly one byte is dropped. -/
def Obligations.ByteDropsFalseStartMarker : Prop :=
  ∀ (d : Byte) (s : State) (rest : List Byte), s.active = true → s.backlog = 0x0F :: rest → rest.length = 23 → d ≠ 0x00 →
    ∃ t, exec (.byte d) s = .next t ∧ t.active = true ∧ t.backlog = rest ++ [d] ∧
      t.batch = (if s.batch.length < 256 then s.batch ++ [d] else s.batch) ∧
      t.slot = s.slot ∧ t.out.NoMessage ∧ SameSurroundings s t

/-- 42_pipeline.md R133: without a session the byte is discarded. -/
def Obligations.ByteIgnoredWithoutSession : Prop :=
  ∀ (d : Byte) (s : State), s.active = false →
    ∃ t, exec (.byte d) s = .next t ∧ t.block = s.block ∧ t.out.NoMessage ∧ SameSurroundings s t

/-- 42_pipeline.md R134: TICK_RAW publishes and clears a batch that is not empty in an active session, and does nothing
otherwise; it touches neither the Backlog nor the slot (90_conflicts.md C6); a message has 1 to RAW_CAP bytes where the batch is
within its bound (10_state.md R24). -/
def Obligations.TickRawPublishesAndClearsBatch : Prop :=
  ∀ s : State, ∃ t, exec .tickRaw s = .next t ∧ t.active = s.active ∧ t.backlog = s.backlog ∧ t.slot = s.slot ∧
    (s.active = true ∧ s.batch ≠ [] → t.out.raw = some s.batch ∧ t.batch = []) ∧
    (s.active = false ∨ s.batch = [] → t.out.raw = none ∧ t.batch = s.batch) ∧
    (s.batch.length ≤ 256 → ∀ b ∈ t.out.raw, 1 ≤ b.length ∧ b.length ≤ 256) ∧
    t.out.fr = none ∧ t.out.dec = none ∧ SameSurroundings s t

/-- 42_pipeline.md R135: TICK_DEC publishes the codes of a full slot, zero-extended to 16 bits, with `ts_in` of the step, and
clears it, in an active session; otherwise it does nothing; it touches neither the Backlog nor the batch. -/
def Obligations.TickDecPublishesAndClearsSlot : Prop :=
  ∀ s : State, ∃ t, exec .tickDec s = .next t ∧ t.active = s.active ∧ t.backlog = s.backlog ∧ t.batch = s.batch ∧
    (∀ c, s.active = true → s.slot = some c →
      t.out.dec = some ⟨c.map (BitVec.setWidth 16), s.port.tsIn⟩ ∧ t.slot = none) ∧
    (s.active = false ∨ s.slot = none → t.out.dec = none ∧ t.slot = s.slot) ∧
    t.out.fr = none ∧ t.out.raw = none ∧ SameSurroundings s t

/-- 42_pipeline.md R138, 30_encoding.md R64, 93_implementation_defined.md U2: a reserved event has the hardware's effect, none,
and marks the run refused; no other operation touches the mark. That the model goes on after the mark is its own choice
(log entry 1). -/
def Obligations.ReservedChangesNothingAndMarksRun : Prop :=
  ∀ s : State,
    (∀ op : BitVec 3, ∃ t, exec (.reserved op) s = .next t ∧ t.block = s.block ∧ t.out.NoMessage ∧
      t.runRefused = true ∧ SamePorts s t) ∧
    ∀ (i : Instr) (t : State), exec i s = .next t → (∀ op, i ≠ .reserved op) → t.runRefused = s.runRefused

/-- 70_reset_and_hazards.md R185, 30_encoding.md R76: the timestamp on the ports changes no state element and no message but the
timestamp of a decoded message published in that very step. -/
def Obligations.TimestampSeenOnlyWhenPublishing : Prop :=
  ∀ (p : PortInput) (ts : Timestamp) (s : State),
    ∃ t u, advance p s = .next t ∧ advance { p with tsIn := ts } s = .next u ∧ t.block = u.block ∧
      t.out.fr = u.out.fr ∧ t.out.raw = u.out.raw ∧ t.out.cd = u.out.cd ∧ t.out.rs = u.out.rs ∧
      (∀ m ∈ t.out.dec, m.ts = p.tsIn ∧ u.out.dec = some { m with ts := ts }) ∧
      (t.out.dec = none → u.out.dec = none)

/-! ## The codec -/

/-- 40_codec.md R92, R93, R94: DECODE answers the ChannelSet of a Frame and FormatError with the candidate for every other byte
list, and writes nothing but its own port. -/
def Obligations.DecodeAnswersChannelSetOrFormatError : Prop :=
  ∀ (f : List Byte) (s : State), ∃ t, exec (.decode f) s = .next t ∧
    (IsFrame f → t.out.cd = some (.ok (unpack ((f.drop 1).take 22)))) ∧
    (¬ IsFrame f → t.out.cd = some (.error ⟨f⟩)) ∧
    t = { s with out := { s.out with cd := t.out.cd } }

/-- 40_codec.md R96, R97: RESCALE answers `Rescale1` of every lane of 16 codes and ShapeError with the count for any other
number of codes, and writes nothing but its own port. -/
def Obligations.RescaleAnswersLanesOrShapeError : Prop :=
  ∀ (c : List Code) (s : State), ∃ t, exec (.rescale c) s = .next t ∧
    (c.length = 16 → t.out.rs = some (.ok (c.map fun v => BitVec.ofNat 11
      (if v.toNat ≤ 172 then 1000 else min 2000 (1000 + (2000 * (v.toNat - 172) + 1639) / 3278))))) ∧
    (c.length ≠ 16 → t.out.rs = some (.error ⟨c.length⟩)) ∧
    t = { s with out := { s.out with rs := t.out.rs } }

/-- 40_codec.md R90: the codec results of a step are functions of that step's port inputs alone, and the inputs change no
element of the block and no message. -/
def Obligations.CodecPortsAreCombinational : Prop :=
  ∀ (p q : PortInput) (s s' : State), p.cdFrameIn = q.cdFrameIn → p.rsChIn = q.rsChIn →
    (∃ t u, advance p s = .next t ∧ advance q s' = .next u ∧ t.out.cd = u.out.cd ∧ t.out.rs = u.out.rs) ∧
    ∀ (v : BitVec 200) (c : BitVec 176), ∃ t u, advance p s = .next t ∧
      advance { p with cdFrameIn := v, rsChIn := c } s = .next u ∧ t.block = u.block ∧
      t.out.fr = u.out.fr ∧ t.out.raw = u.out.raw ∧ t.out.dec = u.out.dec

/-- 30_encoding.md R68: bit `j` of channel `i` is payload bit `11i + j`, which is bit `(11i+j) mod 8` of payload byte
`(11i+j) div 8`; there are 16 channels. -/
def Obligations.ChannelBitsArePayloadBits : Prop :=
  ∀ p : List Byte, p.length = 22 → (unpack p).length = 16 ∧
    ∀ i j, i < 16 → j < 11 →
      ((unpack p).getD i 0).getLsbD j = (p.getD ((11 * i + j) / 8) 0).getLsbD ((11 * i + j) % 8)

/-- 30_encoding.md R69: the unpacker is the table of byte masks and shifts. -/
def Obligations.UnpackIsChannelToByteTable : Prop :=
  ∀ p : List Byte, p.length = 22 → (unpack p).map BitVec.toNat = channelTable p

/-- 40_codec.md R101: Unpack and Pack are inverse on ChannelSets and payloads. -/
def Obligations.PackAndUnpackAreInverse : Prop :=
  (∀ c : ChannelSet, c.length = 16 → (pack c).length = 22 ∧ unpack (pack c) = c) ∧
    ∀ p : List Byte, p.length = 22 → (unpack p).length = 16 ∧ pack (unpack p) = p

/-- 30_encoding.md R71, R77, 40_codec.md R92: on the wires the unpacker is a re-labelling, `cd_ch_out` is frame bytes 1 to 22 of
`cd_frame_in` in every step, and `cd_fmt_err` says whether a marker is wrong. That the wires show these bits under FormatError too is
decision D12, taken over by log entry 6: they carry no meaning there, and a model need not fix them (93_implementation_defined.md
I10). -/
def Obligations.DecodePortRelabelsWires : Prop :=
  ∀ (p : PortInput) (s : State), ∃ t, advance p s = .next t ∧ cdChOut t = p.cdFrameIn.extractLsb' 8 176 ∧
    (cdFmtErr t = true ↔ p.cdFrameIn.extractLsb' 0 8 ≠ 0x0F ∨ p.cdFrameIn.extractLsb' 192 8 ≠ 0x00)

/-- 30_encoding.md R72, R78, 40_codec.md R96: lane `i` of `rs_pw_out` is `Rescale1` of lane `i` of `rs_ch_in` alone, and lies in
[1000, 2000]. -/
def Obligations.RescalePortWorksLaneByLane : Prop :=
  ∀ (p : PortInput) (s : State), ∃ t, advance p s = .next t ∧ ∀ i, i < 16 →
    (rsPwOut t).extractLsb' (11 * i) 11 = rescale1 (p.rsChIn.extractLsb' (11 * i) 11) ∧
    1000 ≤ ((rsPwOut t).extractLsb' (11 * i) 11).toNat ∧ ((rsPwOut t).extractLsb' (11 * i) 11).toNat ≤ 2000

/-- 40_codec.md R95: `Rescale1` is the source's expression under every round-to-nearest rule: any integer nearest to
`1000 + (v - 172) * 1000 / 1639`, clamped to [1000, 2000], is the result, and there is such an integer. -/
def Obligations.RescaleIsEveryNearestRounding : Prop :=
  ∀ v : Code,
    (∃ r : Int, 2 * |1639 * (r - 1000) - 1000 * ((v.toNat : Int) - 172)| ≤ 1639) ∧
    ∀ r : Int, 2 * |1639 * (r - 1000) - 1000 * ((v.toNat : Int) - 172)| ≤ 1639 →
      ((rescale1 v).toNat : Int) = min 2000 (max 1000 r)

/-- 40_codec.md R98: bounds, monotonicity, the two anchors, and the constant ends of `Rescale1`. -/
def Obligations.RescaleIsMonotoneAndClamped : Prop :=
  (∀ v : Code, 1000 ≤ (rescale1 v).toNat ∧ (rescale1 v).toNat ≤ 2000) ∧
    (∀ v w : Code, v.toNat ≤ w.toNat → (rescale1 v).toNat ≤ (rescale1 w).toNat) ∧
    (rescale1 172).toNat = 1000 ∧ (rescale1 1811).toNat = 2000 ∧
    (∀ v : Code, v.toNat ≤ 172 → (rescale1 v).toNat = 1000) ∧
    ∀ v : Code, 1811 ≤ v.toNat → (rescale1 v).toNat = 2000

/-! ## Event words and ports -/

/-- 30_encoding.md R65: every event word decodes by `ev[10:8]` alone, but for the operand of BYTE. -/
def Obligations.EventDecoderIsTotalOnOpField : Prop :=
  ∀ (op : BitVec 3) (d : Byte),
    (op = 0 → decodeEvent (op ++ d) = .nop) ∧ (op = 1 → decodeEvent (op ++ d) = .byte d) ∧
    (op = 2 → decodeEvent (op ++ d) = .tickRaw) ∧ (op = 3 → decodeEvent (op ++ d) = .tickDec) ∧
    (op = 4 → decodeEvent (op ++ d) = .start) ∧ (op = 5 → decodeEvent (op ++ d) = .stop) ∧
    (op = 6 ∨ op = 7 → decodeEvent (op ++ d) = .reserved op)

/-- 95_test_vectors.md section 2.5: words of the spec and what they decode to. -/
def Obligations.SpecEventWordsDecode : Prop :=
  decodeEvent 0x000 = .nop ∧ decodeEvent 0x0FF = .nop ∧ decodeEvent 0x100 = .byte 0x00 ∧ decodeEvent 0x10F = .byte 0x0F ∧
    decodeEvent 0x1FF = .byte 0xFF ∧ decodeEvent 0x200 = .tickRaw ∧ decodeEvent 0x2FF = .tickRaw ∧
    decodeEvent 0x300 = .tickDec ∧ decodeEvent 0x400 = .start ∧ decodeEvent 0x500 = .stop ∧ decodeEvent 0x5A5 = .stop ∧
    decodeEvent 0x600 = .reserved 6 ∧ decodeEvent 0x7FF = .reserved 7

/-- Decoding undoes encoding for every operation the ports can present (30_encoding.md R61, R62, R77, R78, R79). -/
def Obligations.DecodeUndoesEncode : Prop :=
  ∀ i : Instr, i.wellFormed = true → decodeEncoded (encode i) = i

/-- Encoding undoes decoding, with the data field of a word other than BYTE written 0x00 as the assembler does; every decoded
operation is well formed (30_encoding.md R62, R65, R71, R77). -/
def Obligations.EncodeUndoesDecodeUpToIgnoredData : Prop :=
  (∀ (op : BitVec 3) (d : Byte), encode (decodeEvent (op ++ d)) = .event (op ++ (if op = 1 then d else 0))) ∧
    (∀ v : BitVec 200, encode (decodeEncoded (.cdFrameIn v)) = .cdFrameIn v) ∧
    (∀ v : BitVec 176, encode (decodeEncoded (.rsChIn v)) = .rsChIn v) ∧
    ∀ e : Encoded, (decodeEncoded e).wellFormed = true

/-- 30_encoding.md R73: byte `k` of an emitted frame stands at `fr_data[8k+7:8k]`, so the two end bytes are the markers; a step
without a frame has `fr_valid = 0`. -/
def Obligations.FramePortCarriesEmittedFrame : Prop :=
  ∀ (d : Byte) (s : State), s.active = true → ∃ t, exec (.byte d) s = .next t ∧
    (∀ f, t.out.fr = some f → frValid t = true ∧ f.length = 25 ∧
      (∀ k, k < 25 → (frData t).extractLsb' (8 * k) 8 = f.getD k 0) ∧
      (frData t).extractLsb' 0 8 = 0x0F ∧ (frData t).extractLsb' 192 8 = 0x00) ∧
    (t.out.fr = none → frValid t = false)

/-- 30_encoding.md R74: the raw port of a publishing TICK_RAW: the byte count, byte `k` at `[8k+7:8k]`, 0x00 from the count on. -/
def Obligations.RawPortCarriesPublishedBatch : Prop :=
  ∀ s : State, s.active = true → s.batch ≠ [] → s.batch.length ≤ 256 → ∃ t, exec .tickRaw s = .next t ∧
    rawValid t = true ∧ (rawLen t).toNat = s.batch.length ∧ 1 ≤ (rawLen t).toNat ∧
    (∀ k, k < s.batch.length → (rawData t).extractLsb' (8 * k) 8 = s.batch.getD k 0) ∧
    ∀ k, s.batch.length ≤ k → k < 256 → (rawData t).extractLsb' (8 * k) 8 = 0x00

/-- 30_encoding.md R75: the decoded port of a publishing TICK_DEC: lane `i` of 16 bits is the code, its upper five bits 0, and the
timestamp is `ts_in` of the step. -/
def Obligations.DecodedPortCarriesPublishedSlot : Prop :=
  ∀ (s : State) (c : ChannelSet), s.active = true → s.slot = some c → c.length = 16 → ∃ t, exec .tickDec s = .next t ∧
    decValid t = true ∧ decTs t = s.port.tsIn ∧
    ∀ i, i < 16 → (decCh t).extractLsb' (16 * i) 11 = c.getD i 0 ∧ (decCh t).extractLsb' (16 * i + 11) 5 = 0

/-! ## The step -/

/-- 42_pipeline.md R130, 40_codec.md R90: a step on listed port values takes them off the list, advances the position by one
(10_state.md R31), shows both codec results of those values, and is `exec` of the operation they present. The list of inputs is
the model's choice (log entry 2, DESIGN CHOICE), and the composition of one step from both ports and the event is read from the
two rules (log entry 10, DEDUCED). -/
def Obligations.StepRunsPresentedOperation : Prop :=
  ∀ (p : PortInput) (rest : List PortInput) (s : State), s.inputs = p :: rest →
    step s = exec p.instr { s with
      inputs := rest
      port := p
      pos := s.pos + 1
      out := { s.out with
        cd := some (decodeFrame (frameBytes p.cdFrameIn))
        rs := some (rescaleAll (channelLanes p.rsChIn)) } } ∧
    (p.rst = true → p.instr = .reset) ∧ (p.rst = false → p.evValid = false → p.instr = .nop) ∧
    (p.rst = false → p.evValid = true → p.instr = decodeEvent (p.evOp ++ p.evData))

/-- The interface places an event word where the next step takes it: the word of a well-formed event runs as that event. -/
def Obligations.PlacedWordRunsNext : Prop :=
  ∀ (i : Instr) (ev : EventWord) (s : State), i.wellFormed = true → encode i = .event ev →
    decodeTableWord 16 ev.toNat = some i ∧
    ∃ u, step (s.withFetchWord 16 ev.toNat) = exec i u ∧ u.block = s.block ∧ u.inputs = s.inputs ∧
      u.pos = s.pos + 1 ∧ u.runRefused = s.runRefused ∧ u.out.fr = s.out.fr ∧ u.out.raw = s.out.raw ∧ u.out.dec = s.out.dec

/-- A run of the machine over listed inputs is the run over those inputs one after the other (20_memory.md R50). -/
def Obligations.ListedInputsRunInOrder : Prop :=
  ∀ (ps rest : List PortInput) (s : State), ∃ t, runInputs ps { s with inputs := rest } = .next t ∧ t.inputs = rest ∧
    t.pos = s.pos + ps.length ∧ core.run ps.length { s with inputs := ps ++ rest } = .next t

/-- 60_exceptions.md R160, 93_implementation_defined.md U2: a run without a reserved event answers a next state, not a fault and
not a refusal, and is not marked refused (the mark: log entry 1). -/
def Obligations.RunWithoutReservedEventIsSafe : Prop :=
  ∀ (ps : List PortInput) (s : State), s.runRefused = false → (∀ p ∈ ps, notReserved p.instr = true) → SafeRun ps s

/-! ## Invariants and whole-machine rules -/

/-- The invariant of the block holds after reset (10_state.md R33). -/
def Obligations.BlockInvariantHoldsAtReset : Prop :=
  State.reset.Inv

/-- 10_state.md R23, R24, R27: every step, from every state that meets it, keeps the invariant: at most 24 bytes of Backlog, at
most RAW_CAP bytes of batch, 16 codes in a full slot, and empty buffers without a session. -/
def Obligations.EveryStepKeepsBlockInvariant : Prop :=
  ∀ s : State, s.Inv → ∃ t, step s = .next t ∧ t.Inv

/-- 30_encoding.md R73, R74, R75: from a state that meets the invariant, the messages of a step have the form the ports give
them. -/
def Obligations.MessagesAreWellShaped : Prop :=
  ∀ s : State, s.Inv → ∃ t, step s = .next t ∧ t.out.WellShaped

/-- 10_state.md R21, R22, R24, R25: beside STOP and reset, which clear all four elements, START alone writes the flag, and each
buffer has its own writers, in an active session only. -/
def Obligations.OnlyNamedEventsWriteBlock : Prop :=
  ∀ (i : Instr) (s t : State), exec i s = .next t → i ≠ .stop → i ≠ .reset →
    (t.active ≠ s.active → i = .start ∧ t.active = true) ∧
    (t.backlog ≠ s.backlog → s.active = true ∧ ∃ d, i = .byte d) ∧
    (t.batch ≠ s.batch → s.active = true ∧ ((∃ d, i = .byte d) ∨ (i = .tickRaw ∧ t.batch = []))) ∧
    (t.slot ≠ s.slot → s.active = true ∧
      ((∃ d, i = .byte d ∧ t.out.fr ≠ none) ∨ (i = .tickDec ∧ t.slot = none)))

/-- 42_pipeline.md R140: no event but TICK_RAW emits a raw message, none but TICK_DEC a decoded one, and (41_framer.md R119) none
but BYTE a frame; each only in an active session. -/
def Obligations.OnlyOwnEventEmitsMessage : Prop :=
  ∀ (p : PortInput) (s t : State), advance p s = .next t →
    (∀ b ∈ t.out.raw, p.instr = .tickRaw ∧ s.active = true ∧ b = s.batch) ∧
    (∀ m ∈ t.out.dec, p.instr = .tickDec ∧ s.active = true ∧ s.slot ≠ none) ∧
    ∀ f ∈ t.out.fr, s.active = true ∧ ∃ d, p.instr = .byte d ∧ f = s.backlog ++ [d]

/-- 41_framer.md R118: a frame the framer emits always decodes, and the slot holds what DECODE answers for it. -/
def Obligations.EmittedFrameAlwaysDecodes : Prop :=
  ∀ (d : Byte) (s t : State) (f : List Byte), exec (.byte d) s = .next t → t.out.fr = some f →
    ∃ c, decodeFrame f = .ok c ∧ t.slot = some c

/-! ## Streams -/

/-- 41_framer.md R112: the framer step is `Feed` of a one-byte chunk, and leaves fewer than 25 bytes. -/
def Obligations.FramerStepIsFeedOfOneByte : Prop :=
  ∀ (b : List Byte) (d : Byte), b.length ≤ 24 →
    feed b [d] = ((framerStep b d).1, (framerStep b d).2.toList) ∧ (framerStep b d).1.length < 25

/-- 41_framer.md R120: however the bytes are cut into chunks, `Feed` returns the frames that the block emits byte by byte, and the
two Backlogs differ at most in bytes before the first 0x0F. -/
def Obligations.FramesIndependentOfChunking : Prop :=
  ∀ (s : State) (chunks : List (List Byte)) (ps : List PortInput), s.active = true → s.backlog.length ≤ 24 →
    ps.map PortInput.instr = chunks.flatten.map Instr.byte →
    ∃ t, runInputs ps s = .next t ∧ framesOf (trace ps s) = (feedChunks s.backlog chunks).2 ∧
      fromMarker t.backlog = fromMarker (feedChunks s.backlog chunks).1

/-- 41_framer.md R123: over the events of a session the frames are those of the scan of its byte stream, the Backlog is a suffix
of the stream, and from the first 0x0F on it is what the scan has not passed. As this holds of every stream, each frame is
emitted in the step that delivers its last byte. -/
def Obligations.SessionFramesAreScanOfStream : Prop :=
  ∀ (s : State) (ps : List PortInput), s.active = true → s.backlog = [] →
    (∀ p ∈ ps, keepsSession p.instr = true) →
    ∃ t, runInputs ps s = .next t ∧
      framesOf (trace ps s) = (scanStream (bytesOf (ps.map PortInput.instr))).1 ∧
      t.backlog <:+ bytesOf (ps.map PortInput.instr) ∧
      fromMarker t.backlog = fromMarker (scanStream (bytesOf (ps.map PortInput.instr))).2

/-- 10_state.md R32: two states that differ only in the bytes of the Backlog before its first 0x0F produce the same outputs for
every input sequence. -/
def Obligations.GarbageBeforeMarkerIsInvisible : Prop :=
  ∀ (s : State) (b : List Byte), s.backlog.length ≤ 24 → b.length ≤ 24 → fromMarker s.backlog = fromMarker b →
    ∀ ps : List PortInput, trace ps s = trace ps { s with backlog := b }

/-- 95_test_vectors.md W2, 41_framer.md R116: from an empty Backlog, the bytes of one frame, whatever its payload and flag byte,
show exactly that frame and leave an empty Backlog and its ChannelSet in the slot. -/
def Obligations.OneFrameStreamYieldsThatFrame : Prop :=
  ∀ (s : State) (p : List Byte) (flag : Byte) (ps : List PortInput), s.active = true → s.backlog = [] → p.length = 22 →
    ps.map PortInput.instr = (0x0F :: p ++ [flag, 0x00]).map Instr.byte →
    ∃ t, runInputs ps s = .next t ∧ framesOf (trace ps s) = [0x0F :: p ++ [flag, 0x00]] ∧ t.backlog = [] ∧
      t.slot = some (unpack p)

/-- 95_test_vectors.md W3, 41_framer.md R117: a spurious 0x0F before a frame whose flag byte is not 0x00 is dropped and the frame
is recovered intact. -/
def Obligations.SpuriousMarkerIsRecovered : Prop :=
  ∀ (s : State) (p : List Byte) (flag : Byte) (ps : List PortInput), s.active = true → s.backlog = [] → p.length = 22 →
    flag ≠ 0x00 → ps.map PortInput.instr = (0x0F :: 0x0F :: p ++ [flag, 0x00]).map Instr.byte →
    ∃ t, runInputs ps s = .next t ∧ framesOf (trace ps s) = [0x0F :: p ++ [flag, 0x00]] ∧ t.backlog = [] ∧
      t.slot = some (unpack p)

/-- 41_framer.md R122: a spurious 0x0F directly before a frame whose flag byte is 0x00 locks falsely: the spurious frame is
emitted, the real one is lost, and its end marker is left in the Backlog. -/
def Obligations.FalseLockLosesRealFrame : Prop :=
  ∀ (s : State) (p : List Byte) (ps : List PortInput), s.active = true → s.backlog = [] → p.length = 22 →
    ps.map PortInput.instr = (0x0F :: 0x0F :: p ++ [0x00, 0x00]).map Instr.byte →
    ∃ t, runInputs ps s = .next t ∧ framesOf (trace ps s) = [0x0F :: 0x0F :: p ++ [0x00]] ∧ t.backlog = [0x00]

/-- 42_pipeline.md R139: between two TICK_DECs of an active session only the last completed frame survives: the second publishes
its ChannelSet, or what the slot already held where none completed, and no decoded message appears in between. -/
def Obligations.LatestFrameWins : Prop :=
  ∀ (s : State) (ps : List PortInput) (q : PortInput), s.active = true →
    (∀ p ∈ ps, keepsSession p.instr = true ∧ p.instr ≠ .tickDec) → q.instr = .tickDec →
    ∃ t u, runInputs ps s = .next t ∧ decsOf (trace ps s) = [] ∧ advance q t = .next u ∧ u.slot = none ∧
      (∀ f, (framesOf (trace ps s)).getLast? = some f →
        u.out.dec = some ⟨(unpack ((f.drop 1).take 22)).map (BitVec.setWidth 16), q.tsIn⟩) ∧
      (framesOf (trace ps s) = [] →
        u.out.dec = s.slot.map fun c => ⟨c.map (BitVec.setWidth 16), q.tsIn⟩)

/-- 42_pipeline.md R141: the raw messages of a session, then the final batch, are its bytes in arrival order except those dropped
at a full batch; all of them where no interval collects more than RAW_CAP bytes. -/
def Obligations.RawFeedIsStreamLessDroppedBytes : Prop :=
  ∀ (s : State) (ps : List PortInput), s.active = true → (∀ p ∈ ps, keepsSession p.instr = true) →
    ∃ t, runInputs ps s = .next t ∧
      (rawsOf (trace ps s)).flatten ++ t.batch =
        s.batch ++ acceptedBytes 256 s.batch.length (ps.map PortInput.instr) ∧
      (withinCap 256 s.batch.length (ps.map PortInput.instr) = true →
        (rawsOf (trace ps s)).flatten ++ t.batch = s.batch ++ bytesOf (ps.map PortInput.instr))

/-- 42_pipeline.md R142: after a STOP or a reset, a START and any inputs give the outputs and states that they give from the
reset state. -/
def Obligations.RestartIsClean : Prop :=
  ∀ (s : State) (e b : PortInput) (ps : List PortInput), (e.instr = .stop ∨ e.instr = .reset) → b.instr = .start →
    (∀ p ∈ ps, notReserved p.instr = true) →
    ∃ s1 s2 r1 t1 t2, advance e s = .next s1 ∧ advance b s1 = .next s2 ∧ advance b State.reset = .next r1 ∧
      trace ps s2 = trace ps r1 ∧ runInputs ps s2 = .next t1 ∧ runInputs ps r1 = .next t2 ∧ t1.block = t2.block

/-- 42_pipeline.md R143: `onBytes` of a chunk corresponds to one BYTE event for each of its bytes: the same frames, slot and
batch, and Backlogs that differ at most in bytes before the first 0x0F. That `onBytes` caps the batch byte by byte is the model's
reading (log entry 14, DEDUCED): the source's own batch has no capacity. -/
def Obligations.ChunkIsRunOfByteEvents : Prop :=
  ∀ (s : State) (chunk : List Byte) (ps : List PortInput), s.active = true → s.backlog.length ≤ 24 →
    ps.map PortInput.instr = chunk.map Instr.byte →
    ∃ t, runInputs ps s = .next t ∧ framesOf (trace ps s) = (onBytes 256 chunk s).2 ∧
      t.active = (onBytes 256 chunk s).1.active ∧ t.slot = (onBytes 256 chunk s).1.slot ∧
      t.batch = (onBytes 256 chunk s).1.batch ∧ fromMarker t.backlog = fromMarker (onBytes 256 chunk s).1.backlog

/-! ## The environment -/

/-- 42_pipeline.md R140, 70_reset_and_hazards.md R186: where the environment spaces TICK_RAWs (TICK_DECs) by a period, raw
(decoded) messages are spaced by it. -/
def Obligations.PublishRateFollowsTickDuty : Prop :=
  ∀ (period : Nat) (tr : TimedInputs) (s : State),
    (spacedBy period (timesOf (· == .tickRaw) tr) = true →
      spacedBy period (messageTimes (·.raw.isSome) tr s) = true) ∧
    (spacedBy period (timesOf (· == .tickDec) tr) = true →
      spacedBy period (messageTimes (·.dec.isSome) tr s) = true)

/-- 70_reset_and_hazards.md R188: at the line's rate of one byte in 120 microseconds, an empty batch loses no byte of an interval
shorter than 30.72 ms. -/
def Obligations.BatchHoldsRawOverflowWindow : Prop :=
  ∀ (tr : TimedInputs) (s : State), s.active = true → s.batch = [] →
    (∀ x ∈ tr, keepsSession x.2.instr = true ∧ x.2.instr ≠ .tickRaw) →
    spacedBy 120 (timesOf isByte tr) = true →
    (∀ a ∈ timesOf isByte tr, ∀ b ∈ timesOf isByte tr, b < a + 30720) →
    ∃ t, runInputs (tr.map Prod.snd) s = .next t ∧ t.batch = bytesOf (tr.map fun x => x.2.instr)

/-- 30_encoding.md R82: the steps of a line of the event script: its event word on the event port, the timestamp on `ts_in`, and
what the assembler refuses. -/
def Obligations.ScriptLinesAssembleToEventWords : Prop :=
  ∀ (base : PortInput) (b ts : Nat),
    assembleLine base .nop = .ok [base.withEvent 0 0] ∧
    (b < 256 → assembleLine base (.byte b) = .ok [base.withEvent 1 (BitVec.ofNat 8 b)]) ∧
    (256 ≤ b → assembleLine base (.byte b) = .error .byteOutOfRange) ∧
    assembleLine base .tickRaw = .ok [base.withEvent 2 0] ∧
    (ts < 2 ^ 32 → assembleLine base (.tickDec (some ts)) = .ok [{ base.withEvent 3 0 with tsIn := BitVec.ofNat 32 ts }]) ∧
    assembleLine base (.tickDec none) = .error .missingTimestamp ∧
    assembleLine base .start = .ok [base.withEvent 4 0] ∧ assembleLine base .stop = .ok [base.withEvent 5 0] ∧
    (assembleLine base .reset).map (List.map PortInput.instr) = .ok [.reset] ∧
    (assembleLine base .idle).map (List.map PortInput.instr) = .ok [.nop] ∧
    ∀ (op : BitVec 3) (d : Byte), (op = 6 ∨ op = 7) → assembleWord op d = .error .reservedOp

/-- 30_encoding.md R83: `bytes` and `chunk` expand to one BYTE event for each of their bytes; `rep` to copies of one BYTE, none for
a count of 0 (log entry 12); `frame` and `frame.ch` to the 25 BYTE events of the frame with the given payload, or the packed channel
codes, and flag byte. -/
def Obligations.FramePseudoInstructionsExpand : Prop :=
  ∀ (base : PortInput) (p : List Byte) (c : List Code) (flag b : Byte) (n : Nat), p.length = 22 → c.length = 16 →
    (assembleLine base (.frame (p.map BitVec.toNat) flag.toNat)).map (List.map PortInput.instr) =
      .ok ((0x0F :: p ++ [flag, 0x00]).map Instr.byte) ∧
    (assembleLine base (.frameCh (c.map BitVec.toNat) flag.toNat)).map (List.map PortInput.instr) =
      .ok ((0x0F :: pack c ++ [flag, 0x00]).map Instr.byte) ∧
    (assembleLine base (.rep n b.toNat)).map (List.map PortInput.instr) = .ok (List.replicate n (.byte b)) ∧
    ∀ bs : List Byte, bs ≠ [] →
      (assembleLine base (.bytes (bs.map BitVec.toNat))).map (List.map PortInput.instr) = .ok (bs.map Instr.byte) ∧
      (assembleLine base (.chunk (bs.map BitVec.toNat))).map (List.map PortInput.instr) = .ok (bs.map Instr.byte)
end

