-- ==== Sys2Proof/Laws/Lanes.lean ====
section
/-! SUPPORT. Packing into lanes and unpacking are inverse, and where each lane stands. -/

namespace Sys2Proof.Machine

@[simp] theorem length_unpackLanes (w n v : Nat) : (unpackLanes w n v).length = n := by
  induction n generalizing v with
  | zero => rfl
  | succ n ih => simp [unpackLanes, ih]

@[simp] theorem length_unpackWords (w n v : Nat) : (unpackWords w n v).length = n := by
  simp [unpackWords]

/-- A list of `l.length` lanes needs `w` bits for each. -/
theorem packLanes_lt (w : Nat) (l : List Nat) : packLanes w l < 2 ^ (w * l.length) := by
  induction l with
  | nil => simp [packLanes]
  | cons x xs ih =>
    have hx : x % 2 ^ w < 2 ^ w := Nat.mod_lt _ (Nat.two_pow_pos w)
    have hp : 2 ^ (w * (xs.length + 1)) = 2 ^ w * 2 ^ (w * xs.length) := by
      rw [← Nat.pow_add]; congr 1; ring
    simp only [packLanes, List.length_cons, hp]
    calc x % 2 ^ w + 2 ^ w * packLanes w xs < 2 ^ w * (packLanes w xs + 1) := by rw [Nat.mul_add]; omega
      _ ≤ 2 ^ w * 2 ^ (w * xs.length) := Nat.mul_le_mul_left _ ih

/-- Unpacking as many lanes as were packed gives them back, each cut to the lane width. -/
theorem unpackLanes_packLanes (w : Nat) (l : List Nat) :
    unpackLanes w l.length (packLanes w l) = l.map (· % 2 ^ w) := by
  induction l with
  | nil => rfl
  | cons x xs ih =>
    have hx : x % 2 ^ w < 2 ^ w := Nat.mod_lt _ (Nat.two_pow_pos w)
    simp only [packLanes, List.length_cons, unpackLanes, List.map_cons, List.cons.injEq]
    refine ⟨by rw [Nat.add_mul_mod_self_left]; exact Nat.mod_mod _ _, ?_⟩
    rw [Nat.add_mul_div_left _ _ (Nat.two_pow_pos w), Nat.div_eq_of_lt hx, Nat.zero_add, ih]

/-- Packing the lanes of a number gives its low bits. -/
theorem packLanes_unpackLanes (w n v : Nat) : packLanes w (unpackLanes w n v) = v % 2 ^ (w * n) := by
  induction n generalizing v with
  | zero => simp [unpackLanes, packLanes, Nat.mod_one]
  | succ n ih =>
    have hp : 2 ^ (w * (n + 1)) = 2 ^ w * 2 ^ (w * n) := by rw [← Nat.pow_add]; congr 1; ring
    simp only [unpackLanes, packLanes, ih, Nat.mod_mod, hp]
    rw [Nat.mod_mul]

/-- Words come back from their packed number. -/
theorem unpackWords_packWords {w : Nat} (l : List (BitVec w)) : unpackWords w l.length (packWords l) = l := by
  have h := unpackLanes_packLanes w (l.map BitVec.toNat)
  rw [List.length_map] at h
  simp only [unpackWords, packWords, h, List.map_map]
  conv_rhs => rw [← List.map_id l]
  apply List.map_congr_left
  intro x _
  apply BitVec.eq_of_toNat_eq
  simp [Nat.mod_eq_of_lt x.isLt]

/-- A number packed from its words is its low bits. -/
theorem packWords_unpackWords (w n v : Nat) : packWords (unpackWords w n v) = v % 2 ^ (w * n) := by
  have h : (unpackWords w n v).map BitVec.toNat = unpackLanes w n v := by
    simp only [unpackWords, List.map_map]
    conv_rhs => rw [← List.map_id (unpackLanes w n v)]
    apply List.map_congr_left
    intro x hx
    have : ∀ m u, x ∈ unpackLanes w m u → x < 2 ^ w := by
      intro m
      induction m with
      | zero => simp [unpackLanes]
      | succ m ih =>
        intro u hu
        rcases List.mem_cons.mp hu with rfl | hu
        · exact Nat.mod_lt _ (Nat.two_pow_pos w)
        · exact ih _ hu
    simp [Nat.mod_eq_of_lt (this n v hx)]
  rw [packWords, h, packLanes_unpackLanes]

/-- Packed words need `w` bits each. -/
theorem packWords_lt {w : Nat} (l : List (BitVec w)) : packWords l < 2 ^ (w * l.length) := by
  have h := packLanes_lt w (l.map BitVec.toNat)
  rwa [List.length_map] at h

/-- Bit `j` of lane `i` of packed words is bit `j` of word `i`, and 0 past the last word. -/
theorem testBit_packWords {w : Nat} (l : List (BitVec w)) (i j : Nat) (hj : j < w) :
    (packWords l).testBit (w * i + j) = (l.getD i 0).getLsbD j := by
  induction l generalizing i with
  | nil => simp [packWords, packLanes]
  | cons x xs ih =>
    have hx : x.toNat % 2 ^ w < 2 ^ w := Nat.mod_lt _ (Nat.two_pow_pos w)
    have hp : packWords (x :: xs) = 2 ^ w * packWords xs + x.toNat % 2 ^ w := by
      simp [packWords, packLanes, Nat.add_comm]
    rw [hp, Nat.testBit_two_pow_mul_add _ hx]
    cases i with
    | zero => simp [hj, BitVec.getLsbD, Nat.mod_eq_of_lt x.isLt]
    | succ i =>
      have h1 : ¬ w * (i + 1) + j < w := by
        have : w * (i + 1) = w * i + w := by ring
        omega
      have h2 : w * (i + 1) + j - w = w * i + j := by
        have : w * (i + 1) = w * i + w := by ring
        omega
      rw [if_neg h1, h2, ih]
      simp

@[simp] theorem length_frameBytes (v : BitVec 200) : (frameBytes v).length = 25 := length_unpackWords 8 25 _

@[simp] theorem length_channelLanes (v : BitVec 176) : (channelLanes v).length = 16 := length_unpackWords _ 16 _

end Sys2Proof.Machine
end

