-- ==== Sys2Proof/Laws/Codec.lean ====
section
/-! SUPPORT. The codec's functions, one law each. -/

namespace Sys2Proof.Machine

@[simp] theorem length_unpack (p : List Byte) : (unpack p).length = 16 := by simp [unpack, Config.nch]

@[simp] theorem length_pack (c : ChannelSet) : (pack c).length = 22 := length_unpackWords 8 22 _

/-- The payload is bytes 1 to 22. -/
theorem payload_eq (f : List Byte) : payload f = (f.drop 1).take 22 := by
  simp [payload, slice, Config.payloadOfs, Config.payloadLen, List.drop_take]

/-- The shape check in words: 25 bytes and both markers. -/
theorem frameShape_iff (f : List Byte) :
    frameShape f = true ↔ f.length = 25 ∧ f.getD 0 0 = 0x0F ∧ f.getD 24 0 = 0x00 := by
  simp [frameShape, byteAt, Config.packetLength, Config.startMarker, Config.endMarker, and_assoc]

theorem decodeFrame_of_shape {f : List Byte} (h : frameShape f = true) : decodeFrame f = .ok (unpack (payload f)) := by
  simp [decodeFrame, h]

theorem decodeFrame_of_not_shape {f : List Byte} (h : frameShape f = false) : decodeFrame f = .error ⟨f⟩ := by
  simp [decodeFrame, h]

theorem rescaleAll_of_length {c : List Code} (h : c.length = 16) : rescaleAll c = .ok (c.map rescale1) := by
  simp [rescaleAll, h, Config.nch]

theorem rescaleAll_of_length_ne {c : List Code} (h : c.length ≠ 16) : rescaleAll c = .error ⟨c.length⟩ := by
  simp [rescaleAll, h, Config.nch]

/-- A payload bit is 0 or 1. -/
theorem payloadBit_lt_two (p : List Byte) (b : Nat) : payloadBit p b < 2 := by
  unfold payloadBit; split <;> omega

/-- The rescaler on integers, in the numbers of R95. -/
theorem rescaleInt_eq (v : Int) :
    rescaleInt v = if v ≤ 172 then 1000 else min 2000 (1000 + (2000 * (v - 172) + 1639) / 3278) := by
  simp only [rescaleInt, Config.pwInLo, Config.pwMin, Config.pwMax, Config.pwOutSpan, Config.pwInSpan]
  by_cases h : v ≤ 172 <;> norm_num [h]

end Sys2Proof.Machine
end

