-- ==== Sys2Proof/Laws/Decode.lean ====
section
/-! SUPPORT. The fields of an event word. -/

namespace Sys2Proof

@[simp] theorem op_eventWord (op : BitVec 3) (d : Byte) : EventWord.op (eventWord op d) = op := by
  change BitVec.extractLsb' 8 3 (op ++ d : BitVec (3 + 8)) = op
  ext i hi
  rw [BitVec.getElem_extractLsb', BitVec.getLsbD_append]
  simp [hi]

@[simp] theorem data_eventWord (op : BitVec 3) (d : Byte) : EventWord.data (eventWord op d) = d := by
  change BitVec.extractLsb' 0 8 (op ++ d : BitVec (3 + 8)) = d
  ext i hi
  rw [BitVec.getElem_extractLsb', BitVec.getLsbD_append]
  simp [hi]

/-- An event word is its two fields. -/
@[simp] theorem eventWord_op_data (ev : EventWord) : eventWord (EventWord.op ev) (EventWord.data ev) = ev := by
  change (BitVec.extractLsb' 8 3 ev ++ BitVec.extractLsb' 0 8 ev : BitVec (3 + 8)) = ev
  ext i hi
  simp only [BitVec.getElem_append, BitVec.getElem_extractLsb']
  split
  · simp_all
  · have h : 8 + (i - 8) = i := by omega
    simp only [h]
    exact BitVec.getLsbD_eq_getElem hi

/-- The event port never presents DECODE: it is a port of its own. -/
theorem instr_ne_decode {w : Nat} (p : PortInput w) (f : List Byte) : p.instr ≠ .decode f := by
  simp only [PortInput.instr, decodeEvent]
  split_ifs <;> simp

/-- The event port never presents RESCALE: it is a port of its own. -/
theorem instr_ne_rescale {w : Nat} (p : PortInput w) (c : List Code) : p.instr ≠ .rescale c := by
  simp only [PortInput.instr, decodeEvent]
  split_ifs <;> simp

end Sys2Proof
end

