-- ==== Sys2Proof/Laws/Framer.lean ====
section
/-! SUPPORT. What the search, the decision and the framer step can do. -/

namespace Sys2Proof.Machine

/-- No index is found exactly when no byte is the one searched. -/
theorem firstIndex_eq_none_iff (l : List Byte) (b : Byte) : firstIndex l b = none ↔ ∀ x ∈ l, x ≠ b := by
  induction l with
  | nil => simp [firstIndex]
  | cons x xs ih => by_cases h : x = b <;> simp [firstIndex, h, ih]

/-- Index `k` is found exactly when `k` other bytes stand before the first occurrence. -/
theorem firstIndex_eq_some_iff (l : List Byte) (b : Byte) (k : Nat) :
    firstIndex l b = some k ↔ ∃ pre rest, l = pre ++ b :: rest ∧ pre.length = k ∧ ∀ x ∈ pre, x ≠ b := by
  induction l generalizing k with
  | nil => simp [firstIndex]
  | cons x xs ih =>
    by_cases h : x = b
    · subst h
      simp only [firstIndex, if_pos]
      constructor
      · intro hk
        cases hk
        exact ⟨[], xs, rfl, rfl, by simp⟩
      · rintro ⟨pre, rest, hl, rfl, hpre⟩
        cases pre with
        | nil => rfl
        | cons y ys => simp only [List.cons_append, List.cons.injEq] at hl; exact absurd hl.1.symm (hpre y (by simp))
    · simp only [firstIndex, if_neg h, Option.map_eq_some_iff]
      constructor
      · rintro ⟨j, hj, rfl⟩
        obtain ⟨pre, rest, rfl, rfl, hpre⟩ := (ih j).mp hj
        exact ⟨x :: pre, rest, rfl, rfl, by simpa [h] using hpre⟩
      · rintro ⟨pre, rest, hl, rfl, hpre⟩
        cases pre with
        | nil => simp only [List.nil_append, List.cons.injEq] at hl; exact absurd hl.1 h
        | cons y ys =>
          simp only [List.cons_append, List.cons.injEq] at hl
          exact ⟨ys.length, (ih _).mpr ⟨ys, rest, hl.2, rfl, fun z hz => hpre z (by simp [hz])⟩, rfl⟩

/-- Everything the framer step can do: append below 25 bytes; at 25 bytes discard all, drop up to the first marker, emit the
candidate, or drop the false start marker. -/
theorem framerStep_cases (b : List Byte) (d : Byte) :
    (b.length ≠ 24 ∧ framerStep b d = (b ++ [d], none)) ∨
    (b.length = 24 ∧ (∀ x ∈ b ++ [d], x ≠ 0x0F) ∧ framerStep b d = ([], none)) ∨
    (b.length = 24 ∧ ∃ pre rest, b ++ [d] = pre ++ 0x0F :: rest ∧ pre ≠ [] ∧ (∀ x ∈ pre, x ≠ 0x0F) ∧
      framerStep b d = (0x0F :: rest, none)) ∨
    (b.length = 24 ∧ (∃ rest, b = 0x0F :: rest) ∧ d = 0x00 ∧ framerStep b d = ([], some (b ++ [d]))) ∨
    (b.length = 24 ∧ ∃ rest, b = 0x0F :: rest ∧ d ≠ 0x00 ∧ framerStep b d = (rest ++ [d], none)) := by
  by_cases hl : b.length = 24
  · have hlen : (b ++ [d]).length = 25 := by simp [hl]
    have hstep : framerStep b d = framerDecide (b ++ [d]) := by simp [framerStep, hl, Config.packetLength]
    have h24 : (b ++ [d]).getD 24 0 = d := by simp [List.getD, hl]
    right
    rcases hk : firstIndex (b ++ [d]) Config.startMarker with _ | k
    · exact .inl ⟨hl, (firstIndex_eq_none_iff _ _).mp hk, by simp [hstep, framerDecide, hk]⟩
    · obtain ⟨pre, rest, hb, hpre, hne⟩ := (firstIndex_eq_some_iff _ _ _).mp hk
      right
      rcases k with _ | k
      · have hpre0 : pre = [] := List.length_eq_zero_iff.mp hpre
        subst hpre0
        obtain ⟨rest', rfl⟩ : ∃ rest', b = 0x0F :: rest' := by
          cases b with
          | nil => simp at hl
          | cons y ys => simp only [List.cons_append, List.nil_append, List.cons.injEq] at hb; exact ⟨ys, by rw [hb.1]; rfl⟩
        right
        by_cases hd : d = 0x00
        · refine .inl ⟨hl, ⟨rest', rfl⟩, hd, ?_⟩
          have : (0x0F :: rest' ++ [d]).getD 24 0 = Config.endMarker := by rw [h24, hd]; rfl
          simp only [hstep, framerDecide, hk, if_pos this]
          simp [dropPrefix, slice, Config.packetLength] at hl ⊢
          simp [hl]
        · refine .inr ⟨hl, rest', rfl, hd, ?_⟩
          have : ¬ (0x0F :: rest' ++ [d]).getD 24 0 = Config.endMarker := by rw [h24]; exact hd
          simp only [hstep, framerDecide, hk, if_neg this]
          rfl
      · refine .inl ⟨hl, pre, rest, hb, ?_, hne, ?_⟩
        · rintro rfl; simp at hpre
        · simp only [hstep, framerDecide, hk]
          rw [hb, dropPrefix, ← hpre, List.drop_left]
          rfl
  · exact .inl ⟨hl, by simp [framerStep, Config.packetLength, hl]⟩

/-- A framer step that starts with at most 24 bytes leaves at most 24. -/
theorem length_framerStep_le {b : List Byte} {d : Byte} (h : b.length ≤ 24) : (framerStep b d).1.length ≤ 24 := by
  rcases framerStep_cases b d with ⟨hl, e⟩ | ⟨hl, _, e⟩ | ⟨hl, pre, rest, hb, hp, _, e⟩ | ⟨hl, _, _, e⟩ | ⟨hl, rest, rfl, _, e⟩
  · rw [e]; simp; omega
  · simp [e]
  · have hlen := congrArg List.length hb
    have hp' := List.length_pos_iff.mpr hp
    rw [e]; simp at hlen ⊢; omega
  · simp [e]
  · rw [e]; simp at hl ⊢; omega

/-- What a framer step emits is the 25 bytes it held, with both markers. -/
theorem framerStep_emits {b : List Byte} {d : Byte} {f : List Byte} (h : (framerStep b d).2 = some f) :
    f = b ++ [d] ∧ f.length = 25 ∧ f.getD 0 0 = 0x0F ∧ f.getD 24 0 = 0x00 ∧ (framerStep b d).1 = [] := by
  rcases framerStep_cases b d with ⟨_, e⟩ | ⟨_, _, e⟩ | ⟨_, _, _, _, _, _, e⟩ | ⟨hl, ⟨rest, hb⟩, hd, e⟩ | ⟨_, _, _, _, e⟩ <;>
    rw [e] at h <;> cases h
  refine ⟨rfl, by simp [hl], by simp [hb], ?_, by rw [e]⟩
  simp [List.getD, hl, hd]

end Sys2Proof.Machine
end

