-- ==== Sys2Proof/Laws/State.lean ====
section
/-! SUPPORT. What each named update of the state leaves in each field. -/

namespace Sys2Proof.Machine.State

variable {w : Nat}

@[simp] theorem emit_active (s : State w) (fr raw : Option (List Byte)) (dec : Option (DecMessage w)) : (s.emit fr raw dec).active = s.active := rfl
@[simp] theorem emit_backlog (s : State w) (fr raw : Option (List Byte)) (dec : Option (DecMessage w)) : (s.emit fr raw dec).backlog = s.backlog := rfl
@[simp] theorem emit_batch (s : State w) (fr raw : Option (List Byte)) (dec : Option (DecMessage w)) : (s.emit fr raw dec).batch = s.batch := rfl
@[simp] theorem emit_slot (s : State w) (fr raw : Option (List Byte)) (dec : Option (DecMessage w)) : (s.emit fr raw dec).slot = s.slot := rfl
@[simp] theorem emit_inputs (s : State w) (fr raw : Option (List Byte)) (dec : Option (DecMessage w)) : (s.emit fr raw dec).inputs = s.inputs := rfl
@[simp] theorem emit_port (s : State w) (fr raw : Option (List Byte)) (dec : Option (DecMessage w)) : (s.emit fr raw dec).port = s.port := rfl
@[simp] theorem emit_pos (s : State w) (fr raw : Option (List Byte)) (dec : Option (DecMessage w)) : (s.emit fr raw dec).pos = s.pos := rfl
@[simp] theorem emit_out_fr (s : State w) (fr raw : Option (List Byte)) (dec : Option (DecMessage w)) : (s.emit fr raw dec).out.fr = fr := rfl
@[simp] theorem emit_out_raw (s : State w) (fr raw : Option (List Byte)) (dec : Option (DecMessage w)) : (s.emit fr raw dec).out.raw = raw := rfl
@[simp] theorem emit_out_dec (s : State w) (fr raw : Option (List Byte)) (dec : Option (DecMessage w)) : (s.emit fr raw dec).out.dec = dec := rfl
@[simp] theorem emit_out_cd (s : State w) (fr raw : Option (List Byte)) (dec : Option (DecMessage w)) : (s.emit fr raw dec).out.cd = s.out.cd := rfl
@[simp] theorem emit_out_rs (s : State w) (fr raw : Option (List Byte)) (dec : Option (DecMessage w)) : (s.emit fr raw dec).out.rs = s.out.rs := rfl
@[simp] theorem emit_runRefused (s : State w) (fr raw : Option (List Byte)) (dec : Option (DecMessage w)) : (s.emit fr raw dec).runRefused = s.runRefused := rfl

@[simp] theorem quiet_active (s : State w) : (s.quiet).active = s.active := rfl
@[simp] theorem quiet_backlog (s : State w) : (s.quiet).backlog = s.backlog := rfl
@[simp] theorem quiet_batch (s : State w) : (s.quiet).batch = s.batch := rfl
@[simp] theorem quiet_slot (s : State w) : (s.quiet).slot = s.slot := rfl
@[simp] theorem quiet_inputs (s : State w) : (s.quiet).inputs = s.inputs := rfl
@[simp] theorem quiet_port (s : State w) : (s.quiet).port = s.port := rfl
@[simp] theorem quiet_pos (s : State w) : (s.quiet).pos = s.pos := rfl
@[simp] theorem quiet_out_fr (s : State w) : (s.quiet).out.fr = none := rfl
@[simp] theorem quiet_out_raw (s : State w) : (s.quiet).out.raw = none := rfl
@[simp] theorem quiet_out_dec (s : State w) : (s.quiet).out.dec = none := rfl
@[simp] theorem quiet_out_cd (s : State w) : (s.quiet).out.cd = s.out.cd := rfl
@[simp] theorem quiet_out_rs (s : State w) : (s.quiet).out.rs = s.out.rs := rfl
@[simp] theorem quiet_runRefused (s : State w) : (s.quiet).runRefused = s.runRefused := rfl

@[simp] theorem clearBlock_active (s : State w) : (s.clearBlock).active = false := rfl
@[simp] theorem clearBlock_backlog (s : State w) : (s.clearBlock).backlog = [] := rfl
@[simp] theorem clearBlock_batch (s : State w) : (s.clearBlock).batch = [] := rfl
@[simp] theorem clearBlock_slot (s : State w) : (s.clearBlock).slot = none := rfl
@[simp] theorem clearBlock_inputs (s : State w) : (s.clearBlock).inputs = s.inputs := rfl
@[simp] theorem clearBlock_port (s : State w) : (s.clearBlock).port = s.port := rfl
@[simp] theorem clearBlock_pos (s : State w) : (s.clearBlock).pos = s.pos := rfl
@[simp] theorem clearBlock_out (s : State w) : (s.clearBlock).out = s.out := rfl
@[simp] theorem clearBlock_runRefused (s : State w) : (s.clearBlock).runRefused = s.runRefused := rfl

@[simp] theorem showDecode_active (s : State w) (r : Except FormatError ChannelSet) : (s.showDecode r).active = s.active := rfl
@[simp] theorem showDecode_backlog (s : State w) (r : Except FormatError ChannelSet) : (s.showDecode r).backlog = s.backlog := rfl
@[simp] theorem showDecode_batch (s : State w) (r : Except FormatError ChannelSet) : (s.showDecode r).batch = s.batch := rfl
@[simp] theorem showDecode_slot (s : State w) (r : Except FormatError ChannelSet) : (s.showDecode r).slot = s.slot := rfl
@[simp] theorem showDecode_inputs (s : State w) (r : Except FormatError ChannelSet) : (s.showDecode r).inputs = s.inputs := rfl
@[simp] theorem showDecode_port (s : State w) (r : Except FormatError ChannelSet) : (s.showDecode r).port = s.port := rfl
@[simp] theorem showDecode_pos (s : State w) (r : Except FormatError ChannelSet) : (s.showDecode r).pos = s.pos := rfl
@[simp] theorem showDecode_out_fr (s : State w) (r : Except FormatError ChannelSet) : (s.showDecode r).out.fr = s.out.fr := rfl
@[simp] theorem showDecode_out_raw (s : State w) (r : Except FormatError ChannelSet) : (s.showDecode r).out.raw = s.out.raw := rfl
@[simp] theorem showDecode_out_dec (s : State w) (r : Except FormatError ChannelSet) : (s.showDecode r).out.dec = s.out.dec := rfl
@[simp] theorem showDecode_out_cd (s : State w) (r : Except FormatError ChannelSet) : (s.showDecode r).out.cd = some r := rfl
@[simp] theorem showDecode_out_rs (s : State w) (r : Except FormatError ChannelSet) : (s.showDecode r).out.rs = s.out.rs := rfl
@[simp] theorem showDecode_runRefused (s : State w) (r : Except FormatError ChannelSet) : (s.showDecode r).runRefused = s.runRefused := rfl

@[simp] theorem showRescale_active (s : State w) (r : Except ShapeError PulseWidths) : (s.showRescale r).active = s.active := rfl
@[simp] theorem showRescale_backlog (s : State w) (r : Except ShapeError PulseWidths) : (s.showRescale r).backlog = s.backlog := rfl
@[simp] theorem showRescale_batch (s : State w) (r : Except ShapeError PulseWidths) : (s.showRescale r).batch = s.batch := rfl
@[simp] theorem showRescale_slot (s : State w) (r : Except ShapeError PulseWidths) : (s.showRescale r).slot = s.slot := rfl
@[simp] theorem showRescale_inputs (s : State w) (r : Except ShapeError PulseWidths) : (s.showRescale r).inputs = s.inputs := rfl
@[simp] theorem showRescale_port (s : State w) (r : Except ShapeError PulseWidths) : (s.showRescale r).port = s.port := rfl
@[simp] theorem showRescale_pos (s : State w) (r : Except ShapeError PulseWidths) : (s.showRescale r).pos = s.pos := rfl
@[simp] theorem showRescale_out_fr (s : State w) (r : Except ShapeError PulseWidths) : (s.showRescale r).out.fr = s.out.fr := rfl
@[simp] theorem showRescale_out_raw (s : State w) (r : Except ShapeError PulseWidths) : (s.showRescale r).out.raw = s.out.raw := rfl
@[simp] theorem showRescale_out_dec (s : State w) (r : Except ShapeError PulseWidths) : (s.showRescale r).out.dec = s.out.dec := rfl
@[simp] theorem showRescale_out_cd (s : State w) (r : Except ShapeError PulseWidths) : (s.showRescale r).out.cd = s.out.cd := rfl
@[simp] theorem showRescale_out_rs (s : State w) (r : Except ShapeError PulseWidths) : (s.showRescale r).out.rs = some r := rfl
@[simp] theorem showRescale_runRefused (s : State w) (r : Except ShapeError PulseWidths) : (s.showRescale r).runRefused = s.runRefused := rfl

@[simp] theorem markRefused_active (s : State w) : (s.markRefused).active = s.active := rfl
@[simp] theorem markRefused_backlog (s : State w) : (s.markRefused).backlog = s.backlog := rfl
@[simp] theorem markRefused_batch (s : State w) : (s.markRefused).batch = s.batch := rfl
@[simp] theorem markRefused_slot (s : State w) : (s.markRefused).slot = s.slot := rfl
@[simp] theorem markRefused_inputs (s : State w) : (s.markRefused).inputs = s.inputs := rfl
@[simp] theorem markRefused_port (s : State w) : (s.markRefused).port = s.port := rfl
@[simp] theorem markRefused_pos (s : State w) : (s.markRefused).pos = s.pos := rfl
@[simp] theorem markRefused_out (s : State w) : (s.markRefused).out = s.out := rfl
@[simp] theorem markRefused_runRefused (s : State w) : (s.markRefused).runRefused = true := rfl

@[simp] theorem dropInput_active (s : State w) : (s.dropInput).active = s.active := rfl
@[simp] theorem dropInput_backlog (s : State w) : (s.dropInput).backlog = s.backlog := rfl
@[simp] theorem dropInput_batch (s : State w) : (s.dropInput).batch = s.batch := rfl
@[simp] theorem dropInput_slot (s : State w) : (s.dropInput).slot = s.slot := rfl
@[simp] theorem dropInput_inputs (s : State w) : (s.dropInput).inputs = s.inputs.tail := rfl
@[simp] theorem dropInput_port (s : State w) : (s.dropInput).port = s.port := rfl
@[simp] theorem dropInput_pos (s : State w) : (s.dropInput).pos = s.pos := rfl
@[simp] theorem dropInput_out (s : State w) : (s.dropInput).out = s.out := rfl
@[simp] theorem dropInput_runRefused (s : State w) : (s.dropInput).runRefused = s.runRefused := rfl

@[simp] theorem pushInput_active (s : State w) (p : PortInput w) : (s.pushInput p).active = s.active := rfl
@[simp] theorem pushInput_backlog (s : State w) (p : PortInput w) : (s.pushInput p).backlog = s.backlog := rfl
@[simp] theorem pushInput_batch (s : State w) (p : PortInput w) : (s.pushInput p).batch = s.batch := rfl
@[simp] theorem pushInput_slot (s : State w) (p : PortInput w) : (s.pushInput p).slot = s.slot := rfl
@[simp] theorem pushInput_inputs (s : State w) (p : PortInput w) : (s.pushInput p).inputs = p :: s.inputs := rfl
@[simp] theorem pushInput_port (s : State w) (p : PortInput w) : (s.pushInput p).port = s.port := rfl
@[simp] theorem pushInput_pos (s : State w) (p : PortInput w) : (s.pushInput p).pos = s.pos := rfl
@[simp] theorem pushInput_out (s : State w) (p : PortInput w) : (s.pushInput p).out = s.out := rfl
@[simp] theorem pushInput_runRefused (s : State w) (p : PortInput w) : (s.pushInput p).runRefused = s.runRefused := rfl

@[simp] theorem present_active (s : State w) (p : PortInput w) : (s.present p).active = s.active := rfl
@[simp] theorem present_backlog (s : State w) (p : PortInput w) : (s.present p).backlog = s.backlog := rfl
@[simp] theorem present_batch (s : State w) (p : PortInput w) : (s.present p).batch = s.batch := rfl
@[simp] theorem present_slot (s : State w) (p : PortInput w) : (s.present p).slot = s.slot := rfl
@[simp] theorem present_inputs (s : State w) (p : PortInput w) : (s.present p).inputs = s.inputs := rfl
@[simp] theorem present_port (s : State w) (p : PortInput w) : (s.present p).port = p := rfl
@[simp] theorem present_pos (s : State w) (p : PortInput w) : (s.present p).pos = s.pos + 1 := rfl
@[simp] theorem present_out (s : State w) (p : PortInput w) : (s.present p).out = s.out := rfl
@[simp] theorem present_runRefused (s : State w) (p : PortInput w) : (s.present p).runRefused = s.runRefused := rfl

@[simp] theorem block_active (s : State w) : s.block.active = s.active := rfl
@[simp] theorem block_backlog (s : State w) : s.block.backlog = s.backlog := rfl
@[simp] theorem block_batch (s : State w) : s.block.batch = s.batch := rfl
@[simp] theorem block_slot (s : State w) : s.block.slot = s.slot := rfl

@[simp] theorem nextInput_cons {s : State w} {p : PortInput w} {rest : List (PortInput w)} (h : s.inputs = p :: rest) :
    s.nextInput = p := by simp [nextInput, h]

@[simp] theorem nextInput_nil {s : State w} (h : s.inputs = []) : s.nextInput = undrivenInput s.pos := by simp [nextInput, h]

@[simp] theorem nextInput_pushInput (s : State w) (p : PortInput w) : (s.pushInput p).nextInput = p := rfl

@[simp] theorem dropInput_pushInput (s : State w) (p : PortInput w) : (s.pushInput p).dropInput = s := rfl

/-- START under the policy of this hardware sets the flag and nothing else. -/
@[simp] theorem startSession_ignore (s : State w) : s.startSession .ignore = { s with active := true } := by
  cases s with
  | mk active => cases active <;> rfl

end Sys2Proof.Machine.State

namespace Sys2Proof.Machine

variable {w : Nat}

@[simp] theorem andThen_next (s : State w) (k : State w → Result w) : andThen (.next s) k = k s := rfl

theorem appendCapped_of_lt {cap : Nat} {b : List Byte} (d : Byte) (h : b.length < cap) : appendCapped cap b d = b ++ [d] := by
  simp [appendCapped, h]

theorem appendCapped_of_le {cap : Nat} {b : List Byte} (d : Byte) (h : cap ≤ b.length) : appendCapped cap b d = b := by
  simp [appendCapped, Nat.not_lt.mpr h]

end Sys2Proof.Machine
end

