-- ==== Sys2Proof/Laws/Pipeline.lean ====
section
/-! SUPPORT. What each meaning answers, once. -/

namespace Sys2Proof.Machine

@[simp] theorem exec_nop (s : State) : exec .nop s = .next s.quiet := rfl
@[simp] theorem exec_start (s : State) : exec .start s = .next ({ s with active := true } : State).quiet := by
  simp [exec, execStart, startWith, Config.startWhileActive]
@[simp] theorem exec_stop (s : State) : exec .stop s = .next s.clearBlock.quiet := rfl
@[simp] theorem exec_reserved (op : BitVec 3) (s : State) : exec (.reserved op) s = .next s.markRefused.quiet := rfl
@[simp] theorem exec_reset (s : State) : exec .reset s = .next s.clearBlock.quiet := rfl
@[simp] theorem exec_decode (f : List Byte) (s : State) : exec (.decode f) s = .next (s.showDecode (decodeFrame f)) := rfl
@[simp] theorem exec_rescale (c : List Code) (s : State) : exec (.rescale c) s = .next (s.showRescale (rescaleAll c)) := rfl

theorem exec_byte_active {s : State} (h : s.active = true) (d : Byte) : exec (.byte d) s = .next (ingestByte 256 d s) := by
  simp [exec, execByte, byteWith, h, Config.rawCap]

theorem exec_byte_inactive {s : State} (h : s.active = false) (d : Byte) : exec (.byte d) s = .next s.quiet := by
  simp [exec, execByte, byteWith, h]

theorem exec_tickRaw_publishes {s : State} (h : s.active = true) (hb : s.batch ≠ []) :
    exec .tickRaw s = .next (({ s with batch := [] } : State).emit none (some s.batch) none) := by
  simp [exec, execTickRaw, h, hb]

theorem exec_tickRaw_quiet {s : State} (h : s.active = false ∨ s.batch = []) : exec .tickRaw s = .next s.quiet := by
  rcases h with h | h <;> simp [exec, execTickRaw, h]

theorem exec_tickDec_publishes {s : State} {c : ChannelSet} (h : s.active = true) (hs : s.slot = some c) :
    exec .tickDec s = .next (({ s with slot := none } : State).emit none none (some (decMessage c s.port.tsIn))) := by
  simp [exec, execTickDec, h, hs, timestampOperand]

theorem exec_tickDec_quiet {s : State} (h : s.active = false ∨ s.slot = none) : exec .tickDec s = .next s.quiet := by
  rcases h with h | h
  · simp [exec, execTickDec, h]
  · cases ha : s.active <;> simp [exec, execTickDec, h, ha]

/-! What ingesting a byte leaves in each field. -/

section ingest
variable {w : Nat} (cap : Nat) (d : Byte) (s : State w)

@[simp] theorem ingestByte_active : (ingestByte cap d s).active = s.active := by
  cases h : (framerStep s.backlog d).2 <;> simp [ingestByte, h]
@[simp] theorem ingestByte_backlog : (ingestByte cap d s).backlog = (framerStep s.backlog d).1 := by
  cases h : (framerStep s.backlog d).2 <;> simp [ingestByte, h]
@[simp] theorem ingestByte_batch : (ingestByte cap d s).batch = appendCapped cap s.batch d := by
  cases h : (framerStep s.backlog d).2 <;> simp [ingestByte, h]
@[simp] theorem ingestByte_slot : (ingestByte cap d s).slot =
    match (framerStep s.backlog d).2 with
    | some f => some (unpack (payload f))
    | none => s.slot := by
  cases h : (framerStep s.backlog d).2 <;> simp [ingestByte, h]
@[simp] theorem ingestByte_inputs : (ingestByte cap d s).inputs = s.inputs := by
  cases h : (framerStep s.backlog d).2 <;> simp [ingestByte, h]
@[simp] theorem ingestByte_port : (ingestByte cap d s).port = s.port := by
  cases h : (framerStep s.backlog d).2 <;> simp [ingestByte, h]
@[simp] theorem ingestByte_pos : (ingestByte cap d s).pos = s.pos := by
  cases h : (framerStep s.backlog d).2 <;> simp [ingestByte, h]
@[simp] theorem ingestByte_runRefused : (ingestByte cap d s).runRefused = s.runRefused := by
  cases h : (framerStep s.backlog d).2 <;> simp [ingestByte, h]
@[simp] theorem ingestByte_out_fr : (ingestByte cap d s).out.fr = (framerStep s.backlog d).2 := by
  cases h : (framerStep s.backlog d).2 <;> simp [ingestByte, h]
@[simp] theorem ingestByte_out_raw : (ingestByte cap d s).out.raw = none := by
  cases h : (framerStep s.backlog d).2 <;> simp [ingestByte, h]
@[simp] theorem ingestByte_out_dec : (ingestByte cap d s).out.dec = none := by
  cases h : (framerStep s.backlog d).2 <;> simp [ingestByte, h]
@[simp] theorem ingestByte_out_cd : (ingestByte cap d s).out.cd = s.out.cd := by
  cases h : (framerStep s.backlog d).2 <;> simp [ingestByte, h]
@[simp] theorem ingestByte_out_rs : (ingestByte cap d s).out.rs = s.out.rs := by
  cases h : (framerStep s.backlog d).2 <;> simp [ingestByte, h]

end ingest

/-- The batch never exceeds its capacity once it is within it. -/
theorem length_appendCapped_le {cap : Nat} {b : List Byte} {d : Byte} (h : b.length ≤ cap) :
    (appendCapped cap b d).length ≤ cap := by
  unfold appendCapped
  split
  · simpa using by omega
  · exact h

/-- Everything `exec` can do: a byte ingested, a batch or a slot published, the session started, the block cleared, the run
marked, a codec result shown, or nothing but an empty set of messages. -/
theorem exec_cases {i : Instr} {s t : State} (h : exec i s = .next t) :
    (∃ d, i = .byte d ∧ s.active = true ∧ t = ingestByte 256 d s) ∨
    (i = .tickRaw ∧ s.active = true ∧ s.batch ≠ [] ∧ t = ({ s with batch := [] } : State).emit none (some s.batch) none) ∨
    (∃ c, i = .tickDec ∧ s.active = true ∧ s.slot = some c ∧
      t = ({ s with slot := none } : State).emit none none (some (decMessage c s.port.tsIn))) ∨
    (i = .start ∧ t = ({ s with active := true } : State).quiet) ∨
    ((i = .stop ∨ i = .reset) ∧ t = s.clearBlock.quiet) ∨
    ((∃ op, i = .reserved op) ∧ t = s.markRefused.quiet) ∨
    (∃ f, i = .decode f ∧ t = s.showDecode (decodeFrame f)) ∨
    (∃ c, i = .rescale c ∧ t = s.showRescale (rescaleAll c)) ∨
    ((i = .nop ∨ (∃ d, i = .byte d ∧ s.active = false) ∨ (i = .tickRaw ∧ (s.active = false ∨ s.batch = [])) ∨
      (i = .tickDec ∧ (s.active = false ∨ s.slot = none))) ∧ t = s.quiet) := by
  cases i with
  | byte d =>
    cases ha : s.active with
    | true => rw [exec_byte_active ha] at h; cases h; simp
    | false => rw [exec_byte_inactive ha] at h; cases h; simp
  | tickRaw =>
    by_cases ha : s.active = false ∨ s.batch = []
    · rw [exec_tickRaw_quiet ha] at h; cases h; simp [ha]
    · rw [not_or, Bool.not_eq_false] at ha
      rw [exec_tickRaw_publishes ha.1 ha.2] at h; cases h; simp [ha]
  | tickDec =>
    by_cases ha : s.active = false ∨ s.slot = none
    · rw [exec_tickDec_quiet ha] at h; cases h; simp [ha]
    · rw [not_or, Bool.not_eq_false] at ha
      obtain ⟨c, hc⟩ := Option.ne_none_iff_exists'.mp ha.2
      rw [exec_tickDec_publishes ha.1 hc] at h; cases h; simp [ha.1, hc]
  | _ => simp at h; subst h; simp

/-- Every operation answers a next state: nothing faults and nothing is refused. -/
theorem exec_total (i : Instr) (s : State) : ∃ t, exec i s = .next t := by
  cases i with
  | byte d => cases h : s.active <;> simp [exec, execByte, byteWith, h]
  | tickRaw => by_cases h : s.active = true ∧ s.batch ≠ [] <;> simp [exec, execTickRaw, h]
  | tickDec => cases ha : s.active <;> cases hs : s.slot <;> simp [exec, execTickDec, ha, hs]
  | _ => simp

end Sys2Proof.Machine
end

