-- ==== Sys2Proof/Laws/Step.lean ====
section
/-! SUPPORT. A step is `exec` of its event at the state that the ports leave, and runs go on from there. -/

namespace Sys2Proof.Machine

variable {w : Nat}

/-- The state in which the event of a step runs: the port values presented and both codec results shown. -/
def atPorts (p : PortInput w) (s : State w) : State w :=
  ((s.present p).showDecode (decodeFrame (frameOperand p))).showRescale (rescaleAll (channelsOperand p))

theorem advance_eq (p : PortInput) (s : State) : advance p s = exec p.instr (atPorts p s) := rfl

@[simp] theorem atPorts_active (p : PortInput w) (s : State w) : (atPorts p s).active = s.active := rfl
@[simp] theorem atPorts_backlog (p : PortInput w) (s : State w) : (atPorts p s).backlog = s.backlog := rfl
@[simp] theorem atPorts_batch (p : PortInput w) (s : State w) : (atPorts p s).batch = s.batch := rfl
@[simp] theorem atPorts_slot (p : PortInput w) (s : State w) : (atPorts p s).slot = s.slot := rfl
@[simp] theorem atPorts_inputs (p : PortInput w) (s : State w) : (atPorts p s).inputs = s.inputs := rfl
@[simp] theorem atPorts_port (p : PortInput w) (s : State w) : (atPorts p s).port = p := rfl
@[simp] theorem atPorts_pos (p : PortInput w) (s : State w) : (atPorts p s).pos = s.pos + 1 := rfl
@[simp] theorem atPorts_runRefused (p : PortInput w) (s : State w) : (atPorts p s).runRefused = s.runRefused := rfl
@[simp] theorem atPorts_out_cd (p : PortInput w) (s : State w) :
    (atPorts p s).out.cd = some (decodeFrame (frameBytes p.cdFrameIn)) := rfl
@[simp] theorem atPorts_out_rs (p : PortInput w) (s : State w) :
    (atPorts p s).out.rs = some (rescaleAll (channelLanes p.rsChIn)) := rfl

theorem step_eq_advance (s : State) : step s = advance s.nextInput s.dropInput := rfl

/-- Every step on given port values answers a next state. -/
theorem advance_total (p : PortInput) (s : State) : ∃ t, advance p s = .next t := exec_total _ _

theorem runInputs_cons {p : PortInput} {s t : State} (h : advance p s = .next t) (ps : List PortInput) :
    runInputs (p :: ps) s = runInputs ps t := by
  simp [runInputs, h, andThen]

theorem trace_cons {p : PortInput} {s t : State} (h : advance p s = .next t) (ps : List PortInput) :
    trace (p :: ps) s = t.out :: trace ps t := by
  simp [trace, h]

/-- Every run over inputs answers a next state. -/
theorem runInputs_total (ps : List PortInput) (s : State) : ∃ t, runInputs ps s = .next t := by
  induction ps generalizing s with
  | nil => exact ⟨s, rfl⟩
  | cons p ps ih =>
    obtain ⟨t, h⟩ := advance_total p s
    rw [runInputs_cons h]
    exact ih t

/-- A run over two lists is the second run after the first. -/
theorem runInputs_append {ps : List PortInput} {s t : State} (h : runInputs ps s = .next t) (qs : List PortInput) :
    runInputs (ps ++ qs) s = runInputs qs t := by
  induction ps generalizing s with
  | nil => cases h; rfl
  | cons p ps ih =>
    obtain ⟨u, hu⟩ := advance_total p s
    rw [runInputs_cons hu] at h
    rw [List.cons_append, runInputs_cons hu, ih h]

/-- The outputs of a run over two lists are those of the first run, then those of the second. -/
theorem trace_append {ps : List PortInput} {s t : State} (h : runInputs ps s = .next t) (qs : List PortInput) :
    trace (ps ++ qs) s = trace ps s ++ trace qs t := by
  induction ps generalizing s with
  | nil => cases h; rfl
  | cons p ps ih =>
    obtain ⟨u, hu⟩ := advance_total p s
    rw [runInputs_cons hu] at h
    rw [List.cons_append, trace_cons hu, trace_cons hu, ih h, List.cons_append]

@[simp] theorem length_trace (ps : List PortInput) (s : State) : (trace ps s).length = ps.length := by
  induction ps generalizing s with
  | nil => rfl
  | cons p ps ih =>
    obtain ⟨t, h⟩ := advance_total p s
    simp [trace_cons h, ih]

end Sys2Proof.Machine
end

