-- ==== Sys2Proof/Laws/Fairness.lean ====
section
/-! SUPPORT. The two liveness claims of 70_reset_and_hazards.md R193, each under its fairness premise and nothing else. A STOP or a reset discards what is pending (42_pipeline.md R137), so each claim ends there too. -/

namespace Sys2Proof.Machine

theorem streamRun_succ {env : InputStream} {s u : State} {n : Nat} (h : streamRun env s n = .next u) :
    streamRun env s (n + 1) = advance (env n) u := by
  simp [streamRun, h]

/-- Every endless run goes on. -/
theorem streamRun_total (env : InputStream) (s : State) (n : Nat) : ∃ u, streamRun env s n = .next u := by
  induction n with
  | zero => exact ⟨s, rfl⟩
  | succ n ih =>
    obtain ⟨u, hu⟩ := ih
    rw [streamRun_succ hu]
    exact advance_total _ u

/-- What waits until a fair tick comes: a property of an active state that every step keeps or brings to its goal, and that the
tick brings to its goal, reaches the goal. -/
theorem eventually_of_fairTick {env : InputStream} {s u : State} {n : Nat} {tick : Instr} {W : State → Prop}
    {G : PortInput → State → Prop} (fair : FairTick tick env s) (hn : streamRun env s n = .next u) (hW : W u)
    (hact : ∀ x, W x → x.active = true)
    (hstep : ∀ p x y, W x → advance p x = .next y → W y ∨ G p y)
    (htick : ∀ p x y, W x → p.instr = tick → advance p x = .next y → G p y) : EventuallyFrom env s n G := by
  have waits : ∀ k, EventuallyFrom env s n G ∨ ∃ x, streamRun env s (n + k) = .next x ∧ W x := by
    intro k
    induction k with
    | zero => exact .inr ⟨u, hn, hW⟩
    | succ k ih =>
      rcases ih with ih | ⟨x, hx, hWx⟩
      · exact .inl ih
      · obtain ⟨y, hy⟩ := advance_total (env (n + k)) x
        have hrun := (streamRun_succ hx).trans hy
        rcases hstep _ x y hWx hy with h | h
        · exact .inr ⟨y, hrun, h⟩
        · exact .inl ⟨n + k, y, by omega, hrun, h⟩
  obtain ⟨m, hm, hm'⟩ := fair n
  obtain ⟨k, rfl⟩ := Nat.exists_eq_add_of_le hm
  rcases waits k with h | ⟨x, hx, hWx⟩
  · exact h
  · rcases hm' with hi | ⟨v, hv, hoff⟩
    · obtain ⟨y, hy⟩ := advance_total (env (n + k)) x
      exact ⟨n + k, y, hm, (streamRun_succ hx).trans hy, htick _ x y hWx hi hy⟩
    · rw [hx] at hv
      cases hv
      simp [hact x hWx] at hoff

/-- Under fair TICK_DECs every completed frame, held in the slot, is published or superseded by a later frame, unless the session
ends (R193, 42_pipeline.md R139). -/
theorem frame_eventually_published_or_superseded {env : InputStream} {s u : State} {n : Nat} {c : ChannelSet}
    (fair : FairDecTicks env s) (hn : streamRun env s n = .next u) (ha : u.active = true) (hc : u.slot = some c) :
    EventuallyFrom env s n fun p v =>
      v.out.dec = some (decMessage c p.tsIn) ∨ v.out.fr ≠ none ∨ v.active = false := by
  refine eventually_of_fairTick (W := fun x => x.active = true ∧ x.slot = some c) fair hn ⟨ha, hc⟩ (fun x h => h.1) ?_ ?_
  · rintro p x y ⟨hx, hs⟩ h
    rw [advance_eq] at h
    rcases exec_cases h with ⟨d, -, -, rfl⟩ | ⟨-, -, -, rfl⟩ | ⟨c', -, -, hs', rfl⟩ | ⟨-, rfl⟩ | ⟨-, rfl⟩ | ⟨-, rfl⟩ |
      ⟨f, -, rfl⟩ | ⟨f, -, rfl⟩ | ⟨-, rfl⟩
    · cases hf : (framerStep x.backlog d).2 <;> simp [hx, hs, hf]
    · simp [hx, hs]
    · have : c' = c := by simpa [hs] using hs'.symm
      simp [this]
    all_goals simp [hx, hs]
  · rintro p x y ⟨hx, hs⟩ hi h
    rw [advance_eq, hi, exec_tickDec_publishes (c := c) (by simpa using hx) (by simpa using hs)] at h
    cases h
    simp

/-- Under fair TICK_RAWs every accepted raw byte, held in the batch, is published with the bytes accepted after it, unless the
session ends (R193, 42_pipeline.md R141). -/
theorem batch_eventually_published {env : InputStream} {s u : State} {n : Nat} {b : List Byte}
    (fair : FairRawTicks env s) (hn : streamRun env s n = .next u) (ha : u.active = true) (hb : u.batch = b)
    (hne : b ≠ []) :
    EventuallyFrom env s n fun _ v => (∃ r, v.out.raw = some r ∧ b <+: r) ∨ v.active = false := by
  have ne : ∀ {l : List Byte}, b <+: l → l ≠ [] := fun h h0 => hne (List.prefix_nil.mp (h0 ▸ h))
  refine eventually_of_fairTick (W := fun x => x.active = true ∧ b <+: x.batch) fair hn
    ⟨ha, hb ▸ List.prefix_rfl⟩ (fun x h => h.1) ?_ ?_
  · rintro p x y ⟨hx, hs⟩ h
    rw [advance_eq] at h
    rcases exec_cases h with ⟨d, -, -, rfl⟩ | ⟨-, -, -, rfl⟩ | ⟨c', -, -, -, rfl⟩ | ⟨-, rfl⟩ | ⟨-, rfl⟩ | ⟨-, rfl⟩ |
      ⟨f, -, rfl⟩ | ⟨f, -, rfl⟩ | ⟨-, rfl⟩
    · left
      refine ⟨by simpa using hx, ?_⟩
      rw [ingestByte_batch]
      by_cases hl : x.batch.length < 256
      · rw [atPorts_batch, appendCapped_of_lt d hl]
        exact hs.trans (List.prefix_append _ _)
      · rw [atPorts_batch, appendCapped_of_le d (Nat.not_lt.mp hl)]
        exact hs
    all_goals simp [hx, hs]
  · rintro p x y ⟨hx, hs⟩ hi h
    rw [advance_eq, hi, exec_tickRaw_publishes (by simpa using hx) (by simpa using ne hs)] at h
    cases h
    exact .inl ⟨x.batch, rfl, hs⟩

end Sys2Proof.Machine
end

