-- ==== Sys2Proof/Machine/Parametric.lean ====
section
/-! DEFINITION. The machine with the decision values of 00_scope.md R7 and the open parameters of 92_eei_decisions.md as a named argument. At the parameters of this hardware it is `exec`, `step` and `core` (Laws/Parametric.lean). -/

namespace Sys2Proof.Machine

/-- `exec` under given parameters: BYTE reads RAW_CAP (R132) and START reads START_WHILE_ACTIVE (R136). TS_W is the width of the
timestamp in the state, which TICK_DEC copies from the port (R135); no other operation reads a parameter. -/
def execWith (c : Config.Params) (i : Instr) (s : State c.tsW) : Result c.tsW :=
  match i with
  | .nop => execNop s
  | .byte d => byteWith c d s
  | .tickRaw => execTickRaw s
  | .tickDec => execTickDec s
  | .start => startWith c s
  | .stop => execStop s
  | .reserved op => execReserved op s
  | .decode f => execDecode f s
  | .rescale ch => execRescale ch s
  | .reset => execReset s

/-- One step on given port values under given parameters (R130). -/
def advanceWith (c : Config.Params) (p : PortInput c.tsW) (s : State c.tsW) : Result c.tsW := advanceBy (execWith c) p s

/-- One step under given parameters, taking the oldest input off the list. -/
def stepWith (c : Config.Params) (s : State c.tsW) : Result c.tsW := advanceWith c s.nextInput s.dropInput

/-- The machine under given parameters. -/
def coreWith (c : Config.Params) : Host.Core where
  State := State c.tsW
  Fault := Fault
  Refusal := Refusal
  step := stepWith c
  reset := State.resetAt c.tsW

/-- `raw_len` at its width RAWLEN_W (R74). -/
def rawLenWith (c : Config.Params) (s : State c.tsW) : BitVec c.rawLenW := rawLenWires c.rawLenW s

/-- `raw_data` at its width 8 x RAW_CAP (R74). The port `dec_ts` at its width TS_W is `decTs` (R75). -/
def rawDataWith (c : Config.Params) (s : State c.tsW) : BitVec (8 * c.rawCap) := rawDataWires (8 * c.rawCap) s

end Sys2Proof.Machine
end

