-- ==== Sys2Proof/Laws/Parametric.lean ====
section
/-! SUPPORT. At the parameters of this hardware the parametric machine is the machine, and what the parameters do elsewhere. -/

namespace Sys2Proof.Machine

@[simp] theorem execWith_hardware : execWith Config.hardware = exec := by
  funext i s
  cases i <;> rfl

@[simp] theorem advanceWith_hardware : advanceWith Config.hardware = advance := by
  funext p s
  simp only [advanceWith, execWith_hardware]
  rfl

@[simp] theorem stepWith_hardware : stepWith Config.hardware = step := by
  funext s
  simp only [stepWith, advanceWith_hardware]
  rfl

theorem coreWith_hardware : coreWith Config.hardware = core := by
  simp only [coreWith, stepWith_hardware]
  rfl

/-- The computed width is that of the length port (R7). -/
theorem rawLenW_hardware : Config.hardware.rawLenW = Config.rawLenW := by decide

/-- RAWLEN_W bits write every byte count up to RAW_CAP. -/
theorem rawCap_lt_two_pow_rawLenW (c : Config.Params) : c.rawCap < 2 ^ c.rawLenW := Nat.lt_log2_self

theorem execWith_byte_active (c : Config.Params) {s : State c.tsW} (h : s.active = true) (d : Byte) :
    execWith c (.byte d) s = .next (ingestByte c.rawCap d s) := by
  simp [execWith, byteWith, h]

theorem execWith_tickDec_publishes (c : Config.Params) {s : State c.tsW} {ch : ChannelSet} (h : s.active = true)
    (hs : s.slot = some ch) :
    execWith c .tickDec s = .next (({ s with slot := none } : State c.tsW).emit none none (some (decMessage ch s.port.tsIn))) := by
  simp [execWith, execTickDec, h, hs, timestampOperand]

/-- No operation but BYTE and START reads RAW_CAP or START_WHILE_ACTIVE. -/
theorem execWith_eq_of_tsW (c : Config.Params) (cap : Nat) (policy : Config.StartPolicy) {i : Instr} (s : State c.tsW)
    (hb : ∀ d, i ≠ .byte d) (hs : i ≠ .start) :
    execWith { c with rawCap := cap, startWhileActive := policy } i s = execWith c i s := by
  cases i with
  | byte d => exact absurd rfl (hb d)
  | start => exact absurd rfl hs
  | _ => rfl

/-- Every operation answers a next state under all parameters. -/
theorem execWith_total (c : Config.Params) (i : Instr) (s : State c.tsW) : ∃ t, execWith c i s = .next t := by
  cases i with
  | byte d => cases h : s.active <;> simp [execWith, byteWith, h]
  | tickRaw => by_cases h : s.active = true ∧ s.batch ≠ [] <;> simp [execWith, execTickRaw, h]
  | tickDec => cases ha : s.active <;> cases hs : s.slot <;> simp [execWith, execTickDec, ha, hs]
  | _ => exact ⟨_, rfl⟩

theorem advanceWith_eq (c : Config.Params) (p : PortInput c.tsW) (s : State c.tsW) :
    advanceWith c p s = execWith c p.instr (atPorts p s) := rfl

/-- Every step answers a next state under all parameters. -/
theorem stepWith_total (c : Config.Params) (s : State c.tsW) : ∃ t, stepWith c s = .next t := execWith_total c _ _

/-- At every timestamp width a publishing TICK_DEC step copies `ts_in` of that step, all TS_W bits of it (R75, R76). -/
theorem advanceWith_tickDec_publishes (c : Config.Params) {p : PortInput c.tsW} {s : State c.tsW} {ch : ChannelSet}
    (hi : p.instr = .tickDec) (ha : s.active = true) (hs : s.slot = some ch) :
    ∃ t, advanceWith c p s = .next t ∧ t.out.dec = some (decMessage ch p.tsIn) ∧ decTs t = p.tsIn ∧ t.slot = none := by
  rw [advanceWith_eq, hi, execWith_tickDec_publishes c (by simpa using ha) (by simpa using hs)]
  exact ⟨_, rfl, rfl, rfl, rfl⟩

/-- The assembler puts a timestamp of TS_W bits on `ts_in` and refuses a larger one (R82), and the step that runs the line
publishes that number. -/
theorem assembled_tickDec_publishes (c : Config.Params) {base : PortInput c.tsW} {s : State c.tsW} {ch : ChannelSet} {ts : Nat}
    (hts : ts < 2 ^ c.tsW) (ha : s.active = true) (hs : s.slot = some ch) :
    ∃ p t, assembleLine base (.tickDec (some ts)) = .ok [p] ∧ stepWith c (s.pushInput p) = .next t ∧ (decTs t).toNat = ts := by
  refine ⟨{ base.withEvent 3 0 with tsIn := BitVec.ofNat c.tsW ts }, ?_⟩
  obtain ⟨t, ht, -, htd, -⟩ := advanceWith_tickDec_publishes c
    (p := { base.withEvent 3 0 with tsIn := BitVec.ofNat c.tsW ts })
    (by simp [PortInput.instr, PortInput.withEvent, decodeEvent]) ha hs
  exact ⟨t, by simp [assembleLine, hts], ht, by simp [htd, Nat.mod_eq_of_lt hts]⟩

end Sys2Proof.Machine
end

