-- ==== Sys2Proof/Laws/PerInstr.lean ====
section
/-! SUPPORT. Per operation: the layout of its event word. -/

namespace Sys2Proof.Laws.EventWordLayout

/-- The event word of an operation has an op field of the table and, for every operation but BYTE, data 0x00 (30_encoding.md
R61, R62, R82); an operation without an event word is a port or the pin. -/
def Statement (i : Instr) : Prop :=
  i.wellFormed = true → ∀ ev, encode i = .event ev →
    decodeEvent ev = i ∧ ((∀ d, i ≠ .byte d) → EventWord.data ev = 0)

theorem nop : Statement .nop := by
  intro _ ev h; cases h; exact ⟨by decide, fun _ => by decide⟩
theorem byte (d : Byte) : Statement (.byte d) := by
  intro _ ev h
  cases h
  exact ⟨by simp [decodeEvent], fun h => absurd rfl (h d)⟩
theorem tickRaw : Statement .tickRaw := by
  intro _ ev h; cases h; exact ⟨by decide, fun _ => by decide⟩
theorem tickDec : Statement .tickDec := by
  intro _ ev h; cases h; exact ⟨by decide, fun _ => by decide⟩
theorem start : Statement .start := by
  intro _ ev h; cases h; exact ⟨by decide, fun _ => by decide⟩
theorem stop : Statement .stop := by
  intro _ ev h; cases h; exact ⟨by decide, fun _ => by decide⟩
theorem reserved (op : BitVec 3) : Statement (.reserved op) := by
  intro hw ev h
  cases h
  have hop : op = 6 ∨ op = 7 := by
    simpa [Instr.wellFormed, Instr.reservedOpOk, Instr.frameWidthOk, Instr.laneCountOk] using hw
  rcases hop with rfl | rfl <;> exact ⟨by decide, fun _ => by decide⟩
theorem decode (f : List Byte) : Statement (.decode f) := by
  intro _ ev h; cases h
theorem rescale (c : List Code) : Statement (.rescale c) := by
  intro _ ev h; cases h
theorem reset : Statement .reset := by
  intro _ ev h; cases h

end Sys2Proof.Laws.EventWordLayout
end

