-- ==== Sys2Proof/Tests/Slice0.lean ====
section
/-! SUPPORT. Tests whose expected results stand in 95_test_vectors.md or are worked out from the rule named, and for every statement with hypotheses a theorem that meets them. -/

namespace Sys2Proof.Machine.Tests

/-- Port values with every wire 0. -/
def base : PortInput := PortInput.atRest

/-- An active session with the given buffers. -/
def live (backlog batch : List Byte) (slot : Option ChannelSet) : State :=
  { State.reset with active := true, backlog := backlog, batch := batch, slot := slot }

/-- `F24` of 95_test_vectors.md section 2.3: the first 24 bytes of the frame `0F` and 24 zeros. -/
def f24 : List Byte := 0x0F :: List.replicate 23 0x00

/-- A frame of zeros. -/
def zeroFrame : List Byte := 0x0F :: List.replicate 24 0x00

/-- Payload V7 of section 2.1: sixteen codes 1024. -/
def v7 : List Byte :=
  [0x00, 0x04, 0x20, 0x00, 0x01, 0x08, 0x40, 0x00, 0x02, 0x10, 0x80, 0x00, 0x04, 0x20, 0x00, 0x01, 0x08, 0x40, 0x00, 0x02, 0x10, 0x80]

/-- Payload M1 of section 2.1. -/
def m1 : List Byte :=
  [0xAC, 0x00, 0xDF, 0xC4, 0x01, 0xF0, 0xFF, 0x00, 0x00, 0xF0, 0x7F, 0x55, 0x55, 0x15, 0x19, 0x90, 0xC1, 0x12, 0xC8, 0xD0, 0x07, 0x4B]

/-- The channel set of M1. -/
def m1Codes : ChannelSet :=
  [172, 992, 1811, 0, 2047, 1, 1024, 1023, 1365, 682, 100, 200, 300, 400, 500, 600]

/-- A property of the next state of an outcome; false of a stop. -/
def nextSatisfies {w : Nat} (r : Result w) (P : State w → Bool) : Bool :=
  match r with
  | .next s => P s
  | .fault _ => false
  | .refused _ => false

/-! ## Well-formedness refuses ill-formed terms -/

theorem test_reserved_op_101_is_ill_formed : (Instr.reserved 5).wellFormed = false := by decide
theorem test_decode_of_24_bytes_is_ill_formed : (Instr.decode f24).wellFormed = false := by decide
theorem test_rescale_of_15_codes_is_ill_formed : (Instr.rescale (List.replicate 15 0)).wellFormed = false := by decide

/-! ## Words written out bit by bit (30_encoding.md R61, 95_test_vectors.md section 2.5) -/

theorem test_word_nop : decodeEvent 0b00011111111 = .nop := by decide
theorem test_word_byte : decodeEvent 0b00100001111 = .byte 0x0F := by decide
theorem test_word_tickRaw : decodeEvent 0b01011111111 = .tickRaw := by decide
theorem test_word_tickDec : decodeEvent 0b01100000000 = .tickDec := by decide
theorem test_word_start : decodeEvent 0b10000000000 = .start := by decide
theorem test_word_stop : decodeEvent 0b10110100101 = .stop := by decide
theorem test_word_reserved_110 : decodeEvent 0b11000000000 = .reserved 6 := by decide
theorem test_word_reserved_111 : decodeEvent 0b11111111111 = .reserved 7 := by decide
theorem test_port_decode : decodeEncoded (.cdFrameIn 0x00FF000000000000000000000000000000000000000000080F) =
    .decode (0x0F :: 0x08 :: List.replicate 21 0x00 ++ [0xFF, 0x00]) := by decide
theorem test_port_rescale : decodeEncoded (.rsChIn (0x7FF + 0x001 * 2048)) =
    .rescale (0x7FF :: 0x001 :: List.replicate 14 0x000) := by decide
theorem test_pin_reset : ({ base with rst := true, evValid := true, evOp := 1 } : PortInput).instr = .reset := by decide
theorem test_table_word_byte : decodeTableWord 16 0x10F = some (.byte 0x0F) := by decide
theorem test_table_word_12_bits_rejected : decodeTableWord 16 0x80F = none := by decide
theorem test_bytes_too_short : decodeBytes [0x0F] = .error .tooShort := by decide

/-! ## The codec (section 2.1, 2.2) -/

theorem test_unpack_v7 : unpack v7 = List.replicate 16 1024 := by decide
theorem test_unpack_m1 : unpack m1 = m1Codes := by decide
theorem test_pack_m1 : pack m1Codes = m1 := by decide
theorem test_table_m1 : channelTable m1 = m1Codes.map BitVec.toNat := by decide
theorem test_rescale_m1 : rescaleAll m1Codes = .ok [1000, 1500, 2000, 1000, 2000, 1000, 1520, 1519, 1728, 1311, 1000, 1017,
    1078, 1139, 1200, 1261] := by decide
theorem test_rescale_corners : ([171, 172, 173, 991, 992, 1810, 1811, 1812, 2047] : List Code).map rescale1 =
    [1000, 1000, 1001, 1500, 1500, 1999, 2000, 2000, 2000] := by decide
theorem test_decode_flag_byte_ignored : nextSatisfies (exec (.decode (0x0F :: List.replicate 22 0x00 ++ [0xFF, 0x00])) State.reset)
    (fun t => t.out.cd == some (.ok (List.replicate 16 0))) = true := by decide
theorem test_decode_24_bytes_is_format_error : nextSatisfies (exec (.decode f24) State.reset)
    (fun t => t.out.cd == some (.error ⟨f24⟩)) = true := by decide
theorem test_rescale_15_codes_is_shape_error : nextSatisfies (exec (.rescale (List.replicate 15 0)) State.reset)
    (fun t => t.out.rs == some (.error ⟨15⟩)) = true := by decide

/-! ## The framer (section 2.3) -/

theorem test_framer_f1 : framerStep [] 0x0F = ([0x0F], none) := by decide
theorem test_framer_f2 : framerStep f24 0x00 = ([], some zeroFrame) := by decide
theorem test_framer_f3 : framerStep f24 0x01 = (List.replicate 23 0x00 ++ [0x01], none) := by decide
theorem test_framer_f4 : framerStep (List.replicate 24 0x55) 0x55 = ([], none) := by decide
theorem test_framer_f5 : framerStep (List.replicate 24 0x55) 0x0F = ([0x0F], none) := by decide
theorem test_framer_f6 : framerStep ([0x55, 0x55, 0x55, 0x0F] ++ List.replicate 20 0x00) 0x00 =
    (0x0F :: List.replicate 21 0x00, none) := by decide
theorem test_framer_f10 : framerStep (List.replicate 23 0x0F) 0x00 = (List.replicate 23 0x0F ++ [0x00], none) := by decide

/-! The framer's states (10_state.md R26) -/

theorem test_view_empty : framerView [] = some .seekingStart := by decide
theorem test_view_candidate : framerView f24 = some .haveCandidate := by decide
theorem test_view_validating : framerView zeroFrame = some .validating := by decide

/-! ## Events (section 2.4) -/

theorem test_byte_p5_full_batch : nextSatisfies (exec (.byte 0x0F) (live [] (List.replicate 256 1) none))
    (fun t => t.batch.length == 256 && t.backlog == [0x0F]) = true := by decide +kernel
theorem test_byte_p6_overwrites_slot : nextSatisfies (exec (.byte 0x00) (live f24 [] (some (List.replicate 16 7))))
    (fun t => t.backlog == [] && t.slot == some (List.replicate 16 0) && t.out.fr == some zeroFrame) = true := by decide
theorem test_p6_cap_four_drops_tail : (ingestByte 4 5 (live [] [1, 2, 3, 4] none)).batch = [1, 2, 3, 4] := by decide
theorem test_p6_cap_four_on_the_step : nextSatisfies
    (stepWith { Config.hardware with rawCap := 4 } { live [1, 2, 3, 4] [1, 2, 3, 4] none with inputs := [byteInput base 5] })
    (fun t => t.batch == [1, 2, 3, 4] && t.backlog == [1, 2, 3, 4, 5]) = true := by decide
theorem test_length_field_of_cap_four : ({ Config.hardware with rawCap := 4 } : Config.Params).rawLenW = 3 := by decide
theorem test_tickDec_ts_width_eight : nextSatisfies
    (stepWith { Config.hardware with tsW := 8 }
      { State.resetAt 8 with active := true, slot := some m1Codes, inputs := [{ (PortInput.atRest : PortInput 8).withEvent 3 0 with tsIn := 0xA5 }] })
    (fun t => t.slot == none && t.out.dec == some ⟨m1Codes.map (BitVec.setWidth 16), 0xA5#8⟩) = true := by decide
theorem test_tickDec_line_of_ts_width_eight :
    assembleLine (PortInput.atRest : PortInput 8) (.tickDec (some 256)) = .error .timestampOutOfRange ∧
    (assembleLine (PortInput.atRest : PortInput 64) (.tickDec (some (2 ^ 32)))).isOk = true := by decide
theorem test_tickRaw_p8 : nextSatisfies (exec .tickRaw (live [] [1, 2, 3] (some m1Codes)))
    (fun t => t.batch == [] && t.slot == some m1Codes && t.out.raw == some [1, 2, 3]) = true := by decide
theorem test_tickRaw_p9_inactive : nextSatisfies (exec .tickRaw State.reset) (fun t => t == State.reset) = true := by decide
theorem test_tickDec_p10 : nextSatisfies (advance { base.withEvent 3 0 with tsIn := 42 } (live [] [1] (some m1Codes)))
    (fun t => t.slot == none && t.batch == [1] && t.out.dec == some ⟨m1Codes.map (BitVec.setWidth 16), 42⟩) = true := by decide
theorem test_tickDec_p11_empty : nextSatisfies (advance { base.withEvent 3 0 with tsIn := 42 } (live [] [] none))
    (fun t => t.slot == none && t.out.dec == none) = true := by decide
theorem test_start_p12 : nextSatisfies (exec .start State.reset) (fun t => t.block == ⟨true, [], [], none⟩) = true := by decide
theorem test_start_p13_active : nextSatisfies (exec .start (live [0x0F] [0x0F] (some m1Codes)))
    (fun t => t.block == ⟨true, [0x0F], [0x0F], some m1Codes⟩) = true := by decide
theorem test_stop_p14 : nextSatisfies (exec .stop (live [0x0F] [0x0F] (some m1Codes)))
    (fun t => t.block == State.reset.block && t.out.raw == none) = true := by decide
theorem test_reserved_p16 : nextSatisfies (exec (.reserved 6) (live [0x0F] [0x0F] (some m1Codes)))
    (fun t => t.block == ⟨true, [0x0F], [0x0F], some m1Codes⟩ && t.runRefused) = true := by decide
theorem test_reset_p17 : nextSatisfies (advance { base.withEvent 1 0x0F with rst := true } (live [0x0F] [0x0F] (some m1Codes)))
    (fun t => t.block == State.reset.block) = true := by decide
theorem test_nop_p1 : nextSatisfies (exec .nop (live [0x0F] [0x0F] none)) (fun t => t == live [0x0F] [0x0F] none) = true := by decide
theorem test_step_takes_placed_word : nextSatisfies (step (State.reset.withFetchWord 16 0x400)) (fun t => t.active) = true := by
  decide

/-! ## The event script (30_encoding.md R82) -/

theorem test_script_byte : parseLine "byte 0x0F ; a marker".toList = .ok (some (.byte 15)) := by decide
theorem test_script_chunk : parseLine "chunk [1, 0x02]".toList = .ok (some (.chunk [1, 2])) := by decide
theorem test_script_tick_without_timestamp : assembleText base "tick.dec".toList = .error .missingTimestamp := by decide
theorem test_script_byte_out_of_range : assembleText base "byte 256".toList = .error .byteOutOfRange := by decide

/-! ## The hypotheses of the statements are met -/

theorem meets_ResetStepIgnoresEventAndClears : ({ base.withEvent 1 7 with rst := true } : PortInput).rst = true := by decide
theorem meets_StopClearsBlockAndIsIdempotent : State.reset.Inv ∧ State.reset.active = false := by decide
theorem meets_NopAndIdleStepChangeNothing : base.withIdle.rst = false ∧ base.withIdle.evValid = false ∧
    (base.withEvent 0 0xFF).rst = false ∧ (base.withEvent 0 0xFF).evOp = 0 := by decide
theorem meets_RunWithoutReservedEventIsSafe : State.reset.runRefused = false ∧
    ∀ p ∈ [base.withEvent 4 0, base.withEvent 1 0x0F], notReserved p.instr = true := by decide
theorem meets_ByteAppendsToBatchUnlessFull_room : (live [] (List.replicate 255 1) none).active = true ∧
    (live [] (List.replicate 255 1) none).batch.length < 256 := by decide +kernel
theorem meets_ByteAppendsToBatchUnlessFull_full : (live [] (List.replicate 256 1) none).active = true ∧
    256 ≤ (live [] (List.replicate 256 1) none).batch.length := by decide +kernel
theorem meets_ByteBelowPacketLengthOnlyAppends : (live (List.replicate 23 0x0F) [] none).active = true ∧
    (live (List.replicate 23 0x0F) [] none).backlog.length < 24 := by decide
theorem meets_ByteWithoutMarkerDiscardsBacklog : (live (List.replicate 24 0x55) [] none).active = true ∧
    (live (List.replicate 24 0x55) [] none).backlog.length = 24 ∧
    ∀ x ∈ (live (List.replicate 24 0x55) [] none).backlog ++ [0x55], x ≠ 0x0F := by decide
theorem meets_ByteResyncsToFirstMarker : (live (List.replicate 24 0x55) [] none).active = true ∧
    (live (List.replicate 24 0x55) [] none).backlog.length = 24 ∧
    (live (List.replicate 24 0x55) [] none).backlog ++ [0x0F] = List.replicate 24 0x55 ++ 0x0F :: [] ∧
    List.replicate 24 (0x55 : Byte) ≠ [] ∧ ∀ x ∈ List.replicate 24 (0x55 : Byte), x ≠ 0x0F := by decide
theorem meets_ByteCompletesFrame : (live f24 [] none).active = true ∧ IsFrame ((live f24 [] none).backlog ++ [0x00]) := by decide
theorem meets_ByteDropsFalseStartMarker : (live f24 [] none).active = true ∧
    (live f24 [] none).backlog = 0x0F :: List.replicate 23 0x00 ∧ (List.replicate 23 (0x00 : Byte)).length = 23 ∧
    (0x01 : Byte) ≠ 0x00 := by decide
theorem meets_ByteIgnoredWithoutSession : State.reset.active = false := by decide
theorem meets_TickRawPublishesAndClearsBatch_publishing : (live [] [1] none).active = true ∧ (live [] [1] none).batch ≠ [] := by
  decide
theorem meets_TickRawPublishesAndClearsBatch_bound : (live [] (List.replicate 256 1) none).batch.length ≤ 256 ∧
    (nextSatisfies (exec .tickRaw (live [] (List.replicate 256 1) none)) (fun t => t.out.raw == some (List.replicate 256 1))) = true := by
  decide +kernel
theorem meets_TickRawPublishesAndClearsBatch_quiet : State.reset.active = false ∧ (live [] [] none).batch = [] := by decide
theorem meets_TickDecPublishesAndClearsSlot_publishing : (live [] [] (some m1Codes)).active = true ∧
    (live [] [] (some m1Codes)).slot = some m1Codes := by decide
theorem meets_TickDecPublishesAndClearsSlot_quiet : State.reset.active = false ∧ (live [] [] none).slot = none := by decide
theorem meets_ReservedChangesNothingAndMarksRun : exec .nop State.reset = .next State.reset.quiet ∧
    ∀ op, Instr.nop ≠ .reserved op := ⟨rfl, by decide⟩
theorem meets_TimestampSeenOnlyWhenPublishing : (∃ t, advance (base.withEvent 3 0) (live [] [] (some m1Codes)) = .next t ∧
    t.out.dec ≠ none) ∧ ∃ t, advance (base.withEvent 3 0) (live [] [] none) = .next t ∧ t.out.dec = none :=
  ⟨⟨_, rfl, by decide⟩, ⟨_, rfl, by decide⟩⟩
theorem meets_DecodeAnswersChannelSetOrFormatError : IsFrame zeroFrame ∧ ¬ IsFrame f24 ∧
    ¬ IsFrame (0x0E :: List.replicate 24 0x00) ∧ ¬ IsFrame (0x0F :: List.replicate 23 0x00 ++ [0x01]) := by decide
theorem meets_RescaleAnswersLanesOrShapeError : m1Codes.length = 16 ∧ (m1Codes ++ [0]).length ≠ 16 := by decide
theorem meets_CodecPortsAreCombinational : base.cdFrameIn = (base.withEvent 5 0).cdFrameIn ∧
    base.rsChIn = (base.withEvent 5 0).rsChIn := by decide
theorem meets_ChannelBitsArePayloadBits : m1.length = 22 ∧ 15 < 16 ∧ 10 < 11 := by decide
theorem meets_UnpackIsChannelToByteTable : v7.length = 22 := by decide
theorem meets_PackAndUnpackAreInverse : m1Codes.length = 16 ∧ m1.length = 22 := by decide
theorem meets_RescalePortWorksLaneByLane : 15 < 16 := by decide
theorem meets_RescaleIsEveryNearestRounding :
    2 * |1639 * ((895 : Int) - 1000) - 1000 * (((0 : Code).toNat : Int) - 172)| ≤ 1639 ∧
    2 * |1639 * ((2144 : Int) - 1000) - 1000 * (((2047 : Code).toNat : Int) - 172)| ≤ 1639 := by decide
theorem meets_RescaleIsMonotoneAndClamped : (0 : Code).toNat ≤ (2047 : Code).toNat ∧ (172 : Code).toNat ≤ 172 ∧
    1811 ≤ (1811 : Code).toNat := by decide
theorem meets_EventDecoderIsTotalOnOpField : ∀ op : BitVec 3, op = 0 ∨ op = 1 ∨ op = 2 ∨ op = 3 ∨ op = 4 ∨ op = 5 ∨
    (op = 6 ∨ op = 7) := by decide
theorem meets_DecodeUndoesEncode : (Instr.byte 0xFF).wellFormed = true ∧ (Instr.reserved 7).wellFormed = true ∧
    (Instr.decode zeroFrame).wellFormed = true ∧ (Instr.rescale m1Codes).wellFormed = true := by decide
theorem meets_FramePortCarriesEmittedFrame : (live f24 [] none).active = true ∧
    (∃ t, exec (.byte 0x00) (live f24 [] none) = .next t ∧ t.out.fr = some zeroFrame) ∧
    ∃ t, exec (.byte 0x01) (live f24 [] none) = .next t ∧ t.out.fr = none :=
  ⟨rfl, ⟨_, rfl, by decide⟩, ⟨_, rfl, by decide⟩⟩
theorem meets_RawPortCarriesPublishedBatch : (live [] (List.replicate 256 1) none).active = true ∧
    (live [] (List.replicate 256 1) none).batch ≠ [] ∧ (live [] (List.replicate 256 1) none).batch.length ≤ 256 ∧
    255 < (live [] (List.replicate 256 1) none).batch.length := by decide +kernel
theorem meets_RawPortCarriesPublishedBatch_short : (live [] [1] none).active = true ∧ (live [] [1] none).batch ≠ [] ∧
    (live [] [1] none).batch.length ≤ 1 ∧ 1 < 256 := by decide
theorem meets_DecodedPortCarriesPublishedSlot : (live [] [] (some m1Codes)).active = true ∧
    (live [] [] (some m1Codes)).slot = some m1Codes ∧ m1Codes.length = 16 := by decide
theorem meets_StepRunsPresentedOperation : ({ State.reset with inputs := [base.withEvent 4 0] } : State).inputs =
    base.withEvent 4 0 :: [] ∧ base.withReset.rst = true ∧ base.rst = false ∧ base.evValid = false ∧
    (base.withEvent 4 0).rst = false ∧ (base.withEvent 4 0).evValid = true := by decide
theorem meets_PlacedWordRunsNext : (Instr.byte 0xFF).wellFormed = true ∧ encode (.byte 0xFF) = .event 0x1FF := by decide
theorem meets_EveryStepKeepsBlockInvariant : (live f24 (List.replicate 256 1) (some m1Codes)).Inv := by decide +kernel
theorem meets_MessagesAreWellShaped : (live [] [1] (some m1Codes)).Inv := by decide
theorem meets_OnlyNamedEventsWriteBlock : exec .tickRaw (live [] [1] none) =
    .next (({ live [] [1] none with batch := [] } : State).emit none (some [1]) none) ∧ Instr.tickRaw ≠ .stop ∧
    Instr.tickRaw ≠ .reset := ⟨rfl, by decide, by decide⟩
theorem meets_OnlyOwnEventEmitsMessage : (∃ t, advance (base.withEvent 2 0) (live [] [1] none) = .next t ∧ t.out.raw = some [1]) ∧
    (∃ t, advance (base.withEvent 3 0) (live [] [] (some m1Codes)) = .next t ∧ t.out.dec ≠ none) ∧
    ∃ t, advance (base.withEvent 1 0) (live f24 [] none) = .next t ∧ t.out.fr = some zeroFrame :=
  ⟨⟨_, rfl, by decide⟩, ⟨_, rfl, by decide⟩, ⟨_, rfl, by decide⟩⟩
theorem meets_EmittedFrameAlwaysDecodes : ∃ t, exec (.byte 0x00) (live f24 [] none) = .next t ∧ t.out.fr = some zeroFrame :=
  ⟨_, rfl, by decide⟩
theorem meets_FramerStepIsFeedOfOneByte : f24.length ≤ 24 := by decide

/-- The port values of BYTE events. -/
def stream (ds : List Byte) : List PortInput := ds.map (byteInput base)

theorem meets_FramesIndependentOfChunking : (live f24 [] none).active = true ∧ (live f24 [] none).backlog.length ≤ 24 ∧
    (stream [0x00, 0x0F]).map PortInput.instr = [[0x00], [], [0x0F]].flatten.map Instr.byte := by decide
theorem meets_SessionFramesAreScanOfStream : (live [] [] none).active = true ∧ (live [] [] none).backlog = [] ∧
    ∀ p ∈ stream zeroFrame ++ [base.withEvent 2 0, base.withEvent 4 0], keepsSession p.instr = true := by decide
theorem meets_GarbageBeforeMarkerIsInvisible : (live [0x55, 0x0F] [] none).backlog.length ≤ 24 ∧
    ([0x0F] : List Byte).length ≤ 24 ∧ fromMarker (live [0x55, 0x0F] [] none).backlog = fromMarker [0x0F] := by decide
theorem meets_OneFrameStreamYieldsThatFrame : (live [] [] none).active = true ∧ (live [] [] none).backlog = [] ∧ m1.length = 22 ∧
    (stream (0x0F :: m1 ++ [0xFF, 0x00])).map PortInput.instr = (0x0F :: m1 ++ [0xFF, 0x00]).map Instr.byte := by decide
theorem meets_SpuriousMarkerIsRecovered : (live [] [] none).active = true ∧ (live [] [] none).backlog = [] ∧ m1.length = 22 ∧
    (0x03 : Byte) ≠ 0x00 ∧ (stream (0x0F :: 0x0F :: m1 ++ [0x03, 0x00])).map PortInput.instr =
      (0x0F :: 0x0F :: m1 ++ [0x03, 0x00]).map Instr.byte := by decide
theorem meets_FalseLockLosesRealFrame : (live [] [] none).active = true ∧ (live [] [] none).backlog = [] ∧ v7.length = 22 ∧
    (stream (0x0F :: 0x0F :: v7 ++ [0x00, 0x00])).map PortInput.instr =
      (0x0F :: 0x0F :: v7 ++ [0x00, 0x00]).map Instr.byte := by decide
theorem meets_LatestFrameWins : (live f24 [] none).active = true ∧
    (∀ p ∈ stream [0x00], keepsSession p.instr = true ∧ p.instr ≠ .tickDec) ∧ (base.withEvent 3 0).instr = .tickDec ∧
    (framesOf (trace (stream [0x00]) (live f24 [] none))).getLast? = some zeroFrame ∧
    framesOf (trace (stream [0x00]) (live [] [] none)) = [] := by decide
theorem meets_RawFeedIsStreamLessDroppedBytes : (live [] (List.replicate 255 1) none).active = true ∧
    (∀ p ∈ stream [1], keepsSession p.instr = true) ∧
    withinCap 256 (live [] (List.replicate 255 1) none).batch.length ((stream [1]).map PortInput.instr) = true := by decide +kernel
theorem meets_RestartIsClean : (base.withEvent 5 0).instr = .stop ∧ base.withReset.instr = .reset ∧
    (base.withEvent 4 0).instr = .start ∧ ∀ p ∈ stream [0x0F], notReserved p.instr = true := by decide
theorem meets_ChunkIsRunOfByteEvents : (live f24 [] none).active = true ∧ (live f24 [] none).backlog.length ≤ 24 ∧
    (stream [0x00, 0x0F]).map PortInput.instr = [0x00, 0x0F].map Instr.byte := by decide
theorem meets_PublishRateFollowsTickDuty :
    spacedBy 25000 (timesOf (· == .tickRaw) [(0, base.withEvent 2 0), (25000, base.withEvent 2 0)]) = true ∧
    spacedBy 50000 (timesOf (· == .tickDec) [(0, base.withEvent 3 0), (50000, base.withEvent 3 0)]) = true := by decide

/-- Two BYTE events one byte time apart. -/
def timedBytes : TimedInputs := [(0, byteInput base 1), (120, byteInput base 2)]

theorem meets_BatchHoldsRawOverflowWindow : (live [] [] none).active = true ∧ (live [] [] none).batch = [] ∧
    (∀ x ∈ timedBytes, keepsSession x.2.instr = true ∧ x.2.instr ≠ .tickRaw) ∧ spacedBy 120 (timesOf isByte timedBytes) = true ∧
    ∀ a ∈ timesOf isByte timedBytes, ∀ b ∈ timesOf isByte timedBytes, b < a + 30720 := by decide
theorem meets_ScriptLinesAssembleToEventWords : 255 < 256 ∧ 256 ≤ 256 ∧ 2 ^ 32 - 1 < 2 ^ 32 ∧
    ((6 : BitVec 3) = 6 ∨ (6 : BitVec 3) = 7) := by decide
theorem meets_FramePseudoInstructionsExpand : m1.length = 22 ∧ m1Codes.length = 16 ∧ ([0x0F] : List Byte) ≠ [] := by decide

/-- The fairness premises of R193 are met: an endless stream of each tick, from any state. -/
theorem meets_FairDecTicks (s : State) : FairDecTicks (fun _ => base.withEvent 3 0) s :=
  fun n => ⟨n, Nat.le_refl n, .inl (show (base.withEvent 3 0).instr = .tickDec by decide)⟩
theorem meets_FairRawTicks (s : State) : FairRawTicks (fun _ => base.withEvent 2 0) s :=
  fun n => ⟨n, Nat.le_refl n, .inl (show (base.withEvent 2 0).instr = .tickRaw by decide)⟩
theorem meets_frame_eventually_published : streamRun (fun _ => base.withEvent 3 0) (live [] [] (some m1Codes)) 0 =
    .next (live [] [] (some m1Codes)) ∧ (live [] [] (some m1Codes)).active = true ∧
    (live [] [] (some m1Codes)).slot = some m1Codes := ⟨rfl, by decide, by decide⟩
theorem meets_batch_eventually_published : streamRun (fun _ => base.withEvent 2 0) (live [] [1] none) 0 =
    .next (live [] [1] none) ∧ (live [] [1] none).active = true ∧ (live [] [1] none).batch = [1] ∧
    ([1] : List Byte) ≠ [] := ⟨rfl, by decide, by decide, by decide⟩

end Sys2Proof.Machine.Tests
end

/-! ## The block's state: its reset values, its invariant, who writes it, and what of the Backlog can show (10_state.md) -/

namespace Sys2Proof.Machine

/-! ### Reset -/

/-- Settles O1: the values stand in the definition of the reset state. -/
theorem resetStateHoldsResetValues : Obligations.ResetStateHoldsResetValues :=
  ⟨rfl, rfl, rfl, rfl, rfl, rfl, rfl, rfl⟩

/-- A cleared block meets the invariant, whatever the other fields hold. -/
theorem inv_of_cleared {s : State} (hbacklog : s.backlog = []) (hbatch : s.batch = []) (hslot : s.slot = none) :
    s.Inv := by
  simp [State.Inv, hbacklog, hbatch, hslot]

/-- Settles O40: all buffers are empty after reset. -/
theorem blockInvariantHoldsAtReset : Obligations.BlockInvariantHoldsAtReset :=
  inv_of_cleared rfl rfl rfl

/-! ### The invariant -/

/-- While a session is active, the invariant is the bounds of the buffers and the shape of the slot. -/
theorem inv_iff_of_active {s : State} (h : s.active = true) :
    s.Inv ↔ s.backlog.length ≤ 24 ∧ s.batch.length ≤ 256 ∧ ∀ c ∈ s.slot, c.length = 16 := by
  simp [State.Inv, h]

/-- The slot holds 16 codes after a byte if it did before: a completed frame writes an unpacked payload. -/
theorem length_slot_ingestByte {cap : Nat} {d : Byte} {s : State} (h : ∀ c ∈ s.slot, c.length = 16) :
    ∀ c ∈ (ingestByte cap d s).slot, c.length = 16 := by
  rw [ingestByte_slot]
  cases (framerStep s.backlog d).2 with
  | none => exact h
  | some f => simp

/-- Every operation keeps the invariant. -/
theorem exec_keeps_inv {i : Instr} {s t : State} (hs : s.Inv) (h : exec i s = .next t) : t.Inv := by
  obtain ⟨hbacklog, hbatch, hslot, hoff⟩ := hs
  rcases exec_cases h with ⟨d, -, ha, rfl⟩ | ⟨-, ha, -, rfl⟩ | ⟨c, -, ha, -, rfl⟩ | ⟨-, rfl⟩ | ⟨-, rfl⟩ | ⟨-, rfl⟩ |
    ⟨f, -, rfl⟩ | ⟨c, -, rfl⟩ | ⟨-, rfl⟩
  · refine (inv_iff_of_active (by simpa using ha)).mpr ⟨?_, ?_, length_slot_ingestByte hslot⟩
    · simpa using length_framerStep_le hbacklog
    · simpa using length_appendCapped_le hbatch
  · exact (inv_iff_of_active (by simpa using ha)).mpr ⟨hbacklog, Nat.zero_le _, hslot⟩
  · exact (inv_iff_of_active (by simpa using ha)).mpr ⟨hbacklog, hbatch, by simp⟩
  · exact (inv_iff_of_active rfl).mpr ⟨hbacklog, hbatch, hslot⟩
  · exact inv_of_cleared rfl rfl rfl
  all_goals exact ⟨hbacklog, hbatch, hslot, hoff⟩

/-- Every step on given port values keeps the invariant: the ports write no element of the block. -/
theorem advance_keeps_inv {p : PortInput} {s t : State} (hs : s.Inv) (h : advance p s = .next t) : t.Inv :=
  exec_keeps_inv (s := atPorts p s) hs h

/-- Settles O41: a step advances on the next port values, and its event keeps the invariant. -/
theorem everyStepKeepsBlockInvariant : Obligations.EveryStepKeepsBlockInvariant := by
  intro s hs
  obtain ⟨t, ht⟩ := advance_total s.nextInput s.dropInput
  exact ⟨t, ht, advance_keeps_inv (s := s.dropInput) hs ht⟩

/-! ### Who writes the block -/

/-- A byte that completes no frame leaves the slot alone. -/
theorem ingestByte_slot_of_no_frame {cap : Nat} {d : Byte} {s : State} (h : (ingestByte cap d s).out.fr = none) :
    (ingestByte cap d s).slot = s.slot := by
  rw [ingestByte_out_fr] at h
  simp [h]

/-- Settles O43: of what an operation can do, ingesting a byte, publishing and starting a session write the block. -/
theorem onlyNamedEventsWriteBlock : Obligations.OnlyNamedEventsWriteBlock := by
  intro i s t h hstop hreset
  rcases exec_cases h with ⟨d, rfl, ha, rfl⟩ | ⟨rfl, ha, -, rfl⟩ | ⟨c, rfl, ha, -, rfl⟩ | ⟨rfl, rfl⟩ | ⟨hi, rfl⟩ |
    ⟨-, rfl⟩ | ⟨f, -, rfl⟩ | ⟨c, -, rfl⟩ | ⟨-, rfl⟩
  · exact ⟨fun hne => absurd (ingestByte_active _ _ _) hne, fun _ => ⟨ha, d, rfl⟩, fun _ => ⟨ha, .inl ⟨d, rfl⟩⟩,
      fun hne => ⟨ha, .inl ⟨d, rfl, fun hfr => hne (ingestByte_slot_of_no_frame hfr)⟩⟩⟩
  · simp [ha]
  · simp [ha]
  · simp
  · exact absurd hi (by simp [hstop, hreset])
  all_goals simp

/-! ### Garbage before the first marker -/

theorem fromMarker_eq_nil_iff {b : List Byte} : fromMarker b = [] ↔ ∀ x ∈ b, x ≠ 0x0F := by
  simp [fromMarker, List.dropWhile_eq_nil_iff]

theorem fromMarker_marker_cons (b : List Byte) : fromMarker (0x0F :: b) = 0x0F :: b := by
  simp [fromMarker]

theorem fromMarker_cons_of_ne {x : Byte} (h : x ≠ 0x0F) (b : List Byte) : fromMarker (x :: b) = fromMarker b :=
  List.dropWhile_cons_of_pos (by simpa using h)

/-- Bytes before the first marker are dropped. -/
theorem fromMarker_append_of_ne {pre : List Byte} (h : ∀ x ∈ pre, x ≠ 0x0F) (b : List Byte) :
    fromMarker (pre ++ b) = fromMarker b := by
  simpa [fromMarker] using List.dropWhile_append_of_pos (by simpa using h)

/-- Either no garbage stands before the first marker, or dropping it makes the list shorter. -/
theorem fromMarker_eq_self_or_length_lt (b : List Byte) : fromMarker b = b ∨ (fromMarker b).length < b.length := by
  cases b with
  | nil => exact .inl rfl
  | cons x xs =>
    by_cases hx : x = 0x0F
    · exact .inl (hx ▸ fromMarker_marker_cons xs)
    · rw [fromMarker_cons_of_ne hx]
      exact .inr (Nat.lt_succ_of_le (List.dropWhile_suffix _).length_le)

/-- What is visible once bytes are appended depends on what was visible before. -/
theorem fromMarker_append (b c : List Byte) : fromMarker (b ++ c) = fromMarker (fromMarker b ++ c) := by
  induction b with
  | nil => rfl
  | cons x xs ih =>
    by_cases hx : x = 0x0F
    · rw [hx, fromMarker_marker_cons]
    · rw [List.cons_append, fromMarker_cons_of_ne hx, fromMarker_cons_of_ne hx, ih]

/-- The framer does not see garbage: while there is some, the visible part is below 24 bytes and takes no decision, and
the full list emits nothing, since at 25 bytes it resynchronizes first (41_framer.md R114, R115). -/
theorem framerStep_fromMarker {b : List Byte} (d : Byte) (hb : b.length ≤ 24) :
    (framerStep b d).2 = (framerStep (fromMarker b) d).2 ∧
      fromMarker (framerStep b d).1 = fromMarker (framerStep (fromMarker b) d).1 := by
  rcases fromMarker_eq_self_or_length_lt b with heq | hlt
  · rw [heq]; exact ⟨rfl, rfl⟩
  have hvis : framerStep (fromMarker b) d = (fromMarker b ++ [d], none) := by
    have : (fromMarker b).length ≠ 24 := by omega
    simp [framerStep, Config.packetLength, this]
  rw [hvis, ← fromMarker_append]
  rcases framerStep_cases b d with ⟨-, e⟩ | ⟨-, hne, e⟩ | ⟨-, pre, rest, hsplit, -, hne, e⟩ | ⟨-, ⟨rest, rfl⟩, -, -⟩ |
    ⟨-, rest, rfl, -, -⟩
  · simp [e]
  · rw [e, fromMarker_eq_nil_iff.mpr hne]; exact ⟨rfl, rfl⟩
  · rw [e, hsplit, fromMarker_append_of_ne hne]; exact ⟨rfl, rfl⟩
  all_goals
    rw [fromMarker_marker_cons] at hlt
    exact absurd hlt (lt_irrefl _)

/-- Two Backlogs that a block can hold and that differ in garbage only. -/
def SameFromMarker (b c : List Byte) : Prop :=
  b.length ≤ 24 ∧ c.length ≤ 24 ∧ fromMarker b = fromMarker c

/-- Framer steps on Backlogs that differ in garbage emit the same and leave Backlogs that differ in garbage. -/
theorem sameFromMarker_framerStep {b c : List Byte} (h : SameFromMarker b c) (d : Byte) :
    (framerStep b d).2 = (framerStep c d).2 ∧ SameFromMarker (framerStep b d).1 (framerStep c d).1 := by
  obtain ⟨hb, hc, heq⟩ := h
  obtain ⟨hfb, hrb⟩ := framerStep_fromMarker d hb
  obtain ⟨hfc, hrc⟩ := framerStep_fromMarker d hc
  rw [heq] at hfb hrb
  exact ⟨hfb.trans hfc.symm, length_framerStep_le hb, length_framerStep_le hc, hrb.trans hrc.symm⟩

/-- The Backlog reaches the rest of the state through the emitted frame only. -/
theorem ingestByte_withBacklog {cap : Nat} {d : Byte} {s : State} {b : List Byte}
    (h : (framerStep s.backlog d).2 = (framerStep b d).2) :
    ingestByte cap d { s with backlog := b } = { ingestByte cap d s with backlog := (framerStep b d).1 } := by
  simp only [ingestByte, ← h]
  cases (framerStep s.backlog d).2 <;> rfl

/-- Every operation on states that differ in garbage leaves states that differ in garbage. -/
theorem exec_keeps_sameFromMarker {i : Instr} {s t : State} {b : List Byte} (hb : SameFromMarker s.backlog b)
    (h : exec i s = .next t) :
    ∃ c, exec i { s with backlog := b } = .next { t with backlog := c } ∧ SameFromMarker t.backlog c := by
  rcases exec_cases h with ⟨d, rfl, ha, rfl⟩ | ⟨rfl, ha, hne, rfl⟩ | ⟨c, rfl, ha, hc, rfl⟩ | ⟨rfl, rfl⟩ | ⟨hi, rfl⟩ |
    ⟨⟨op, rfl⟩, rfl⟩ | ⟨f, rfl, rfl⟩ | ⟨c, rfl, rfl⟩ | ⟨hi, rfl⟩
  · obtain ⟨hfr, hrest⟩ := sameFromMarker_framerStep hb d
    refine ⟨(framerStep b d).1, ?_, by simpa using hrest⟩
    rw [exec_byte_active (by exact ha), ingestByte_withBacklog hfr]
  · exact ⟨b, exec_tickRaw_publishes ha hne, hb⟩
  · exact ⟨b, exec_tickDec_publishes ha hc, hb⟩
  · exact ⟨b, exec_start _, hb⟩
  · exact ⟨[], by rcases hi with rfl | rfl <;> rfl, by simp [SameFromMarker]⟩
  · exact ⟨b, rfl, hb⟩
  · exact ⟨b, rfl, hb⟩
  · exact ⟨b, rfl, hb⟩
  · refine ⟨b, ?_, hb⟩
    rcases hi with rfl | ⟨d, rfl, hoff⟩ | ⟨rfl, hq⟩ | ⟨rfl, hq⟩
    · rfl
    · exact exec_byte_inactive (s := { s with backlog := b }) hoff d
    · exact exec_tickRaw_quiet hq
    · exact exec_tickDec_quiet hq

/-- States that differ in garbage show the same outputs over every input sequence. -/
theorem trace_eq_of_sameFromMarker (ps : List PortInput) {s : State} {b : List Byte} (hb : SameFromMarker s.backlog b) :
    trace ps s = trace ps { s with backlog := b } := by
  induction ps generalizing s b with
  | nil => rfl
  | cons p ps ih =>
    obtain ⟨t, ht⟩ := advance_total p s
    obtain ⟨c, hc, hsame⟩ := exec_keeps_sameFromMarker (s := atPorts p s) hb ht
    rw [trace_cons ht, trace_cons (s := { s with backlog := b }) hc, ih hsame]

/-- Settles O49: a simulation between states that differ in garbage, over all inputs. -/
theorem garbageBeforeMarkerIsInvisible : Obligations.GarbageBeforeMarkerIsInvisible :=
  fun _ _ hs hb heq ps => trace_eq_of_sameFromMarker ps ⟨hs, hb, heq⟩

end Sys2Proof.Machine

/-! ## Runs over listed inputs: the machine's step takes them one by one, in order (20_memory.md R50) -/

namespace Sys2Proof.Machine

/-! ### The inputs to come and the position over one step -/

/-- Ingesting a byte does not look at the inputs to come. -/
theorem ingestByte_withInputs (cap : Nat) (d : Byte) (s : State) (l : List PortInput) :
    ingestByte cap d { s with inputs := l } = { ingestByte cap d s with inputs := l } := by
  simp only [ingestByte]
  cases (framerStep s.backlog d).2 <;> rfl

/-- No operation looks at the inputs to come: other ones in their place give the same next state with those in their
place. -/
theorem exec_withInputs {i : Instr} {s t : State} (h : exec i s = .next t) (l : List PortInput) :
    exec i { s with inputs := l } = .next { t with inputs := l } := by
  rcases exec_cases h with ⟨d, rfl, ha, rfl⟩ | ⟨rfl, ha, hne, rfl⟩ | ⟨c, rfl, ha, hc, rfl⟩ | ⟨rfl, rfl⟩ | ⟨hi, rfl⟩ |
    ⟨⟨op, rfl⟩, rfl⟩ | ⟨f, rfl, rfl⟩ | ⟨c, rfl, rfl⟩ | ⟨hi, rfl⟩
  · rw [exec_byte_active (by exact ha), ingestByte_withInputs]
  · exact exec_tickRaw_publishes ha hne
  · exact exec_tickDec_publishes ha hc
  · exact exec_start _
  · rcases hi with rfl | rfl <;> rfl
  · rfl
  · rfl
  · rfl
  · rcases hi with rfl | ⟨d, rfl, hoff⟩ | ⟨rfl, hq⟩ | ⟨rfl, hq⟩
    · rfl
    · exact exec_byte_inactive (s := { s with inputs := l }) hoff d
    · exact exec_tickRaw_quiet hq
    · exact exec_tickDec_quiet hq

/-- No operation moves the position. -/
theorem exec_pos {i : Instr} {s t : State} (h : exec i s = .next t) : t.pos = s.pos := by
  rcases exec_cases h with ⟨d, -, -, rfl⟩ | ⟨-, -, -, rfl⟩ | ⟨c, -, -, -, rfl⟩ | ⟨-, rfl⟩ | ⟨-, rfl⟩ | ⟨-, rfl⟩ |
    ⟨f, -, rfl⟩ | ⟨c, -, rfl⟩ | ⟨-, rfl⟩
  · exact ingestByte_pos _ _ _
  all_goals rfl

/-- A step on given port values does not look at the inputs to come. -/
theorem advance_withInputs {p : PortInput} {s t : State} (h : advance p s = .next t) (l : List PortInput) :
    advance p { s with inputs := l } = .next { t with inputs := l } :=
  exec_withInputs (s := atPorts p s) h l

/-- A step on given port values leaves the inputs to come as they are. -/
theorem advance_inputs {p : PortInput} {s t : State} (h : advance p s = .next t) : t.inputs = s.inputs := by
  have hsame : t = { t with inputs := s.inputs } := Host.Outcome.next.inj (h.symm.trans (advance_withInputs h s.inputs))
  rw [hsame]

/-- A step on given port values moves the position by one (10_state.md R31). -/
theorem advance_pos {p : PortInput} {s t : State} (h : advance p s = .next t) : t.pos = s.pos + 1 :=
  exec_pos (s := atPorts p s) h

/-! ### Runs -/

/-- A run over given port values leaves the inputs to come as they are. -/
theorem runInputs_inputs {ps : List PortInput} {s t : State} (h : runInputs ps s = .next t) : t.inputs = s.inputs := by
  induction ps generalizing s with
  | nil => cases h; rfl
  | cons p ps ih =>
    obtain ⟨u, hu⟩ := advance_total p s
    rw [runInputs_cons hu] at h
    exact (ih h).trans (advance_inputs hu)

/-- A run over given port values moves the position by one for each of them. -/
theorem runInputs_pos {ps : List PortInput} {s t : State} (h : runInputs ps s = .next t) :
    t.pos = s.pos + ps.length := by
  induction ps generalizing s with
  | nil => cases h; rfl
  | cons p ps ih =>
    obtain ⟨u, hu⟩ := advance_total p s
    rw [runInputs_cons hu] at h
    rw [ih h, advance_pos hu, List.length_cons]
    omega

/-- The machine's step takes the oldest listed input off the list and advances on it. -/
theorem step_listed (p : PortInput) (l : List PortInput) (s : State) :
    step { s with inputs := p :: l } = advance p { s with inputs := l } := rfl

/-- A run of the machine goes on from the state of its first step. -/
theorem coreRun_succ {s t : State} (h : step s = .next t) (k : Nat) : core.run (k + 1) s = core.run k t := by
  have hcore : core.step s = .next t := h
  simp only [Host.Core.run, hcore]

/-- A run of the machine over as many steps as inputs are listed first is the run over those inputs: after each step the
list holds what is left of them. -/
theorem coreRun_eq_of_runInputs {ps rest : List PortInput} {s t : State}
    (h : runInputs ps { s with inputs := rest } = .next t) :
    core.run ps.length { s with inputs := ps ++ rest } = .next t := by
  induction ps generalizing s with
  | nil => exact h
  | cons p ps ih =>
    obtain ⟨u, hu⟩ := advance_total p { s with inputs := rest }
    have hrest : u.inputs = rest := advance_inputs hu
    have hstep : step { s with inputs := p :: (ps ++ rest) } = .next { u with inputs := ps ++ rest } :=
      (step_listed p (ps ++ rest) s).trans (advance_withInputs hu (ps ++ rest))
    rw [runInputs_cons hu] at h
    rw [List.cons_append, List.length_cons, coreRun_succ hstep]
    exact ih (hrest ▸ h)

/-- Settles O38: the run over the inputs answers, keeps what is listed after them and counts them, and the machine's run
over the list is that run. -/
theorem listedInputsRunInOrder : Obligations.ListedInputsRunInOrder := by
  intro ps rest s
  obtain ⟨t, ht⟩ := runInputs_total ps { s with inputs := rest }
  exact ⟨t, ht, runInputs_inputs ht, runInputs_pos (s := { s with inputs := rest }) ht, coreRun_eq_of_runInputs ht⟩

end Sys2Proof.Machine

/-! ## Event words, the input and output ports, and the event script (30_encoding.md) -/

namespace Sys2Proof.Machine

/-! ### Lanes on wires -/

/-- Bit `b` of packed words is bit `b mod w` of word `b div w`, and 0 past the last word. -/
theorem testBit_packWords_divMod {w : Nat} (hw : 0 < w) (l : List (BitVec w)) (b : Nat) :
    (packWords l).testBit b = (l.getD (b / w) 0).getLsbD (b % w) := by
  rw [← testBit_packWords l _ _ (Nat.mod_lt b hw), Nat.div_add_mod]

/-- Lane `i` of the wires that carry packed words is word `i`, and 0 past the last word. -/
theorem extractLsb'_packWords {w n i : Nat} (l : List (BitVec w)) (h : w * i + w ≤ n) :
    (BitVec.ofNat n (packWords l)).extractLsb' (w * i) w = l.getD i 0 := by
  ext j hj
  have hn : w * i + j < n := by omega
  rw [BitVec.getElem_extractLsb', BitVec.getLsbD_ofNat, testBit_packWords l i j hj]
  simp [hn, BitVec.getLsbD_eq_getElem hj]

/-- Word `i` read from wires is their lane `i`; past the wires both are 0. -/
theorem getD_unpackWords {m : Nat} (w n i : Nat) (v : BitVec m) (h : m ≤ w * n) :
    (unpackWords w n v.toNat).getD i 0 = v.extractLsb' (w * i) w := by
  have hv : packWords (unpackWords w n v.toNat) = v.toNat := by
    rw [packWords_unpackWords, Nat.mod_eq_of_lt (v.isLt.trans_le (Nat.pow_le_pow_right Nat.two_pos h))]
  ext j hj
  have hbit := testBit_packWords (unpackWords w n v.toNat) i j hj
  rw [hv, BitVec.testBit_toNat, BitVec.getLsbD_eq_getElem hj] at hbit
  rw [BitVec.getElem_extractLsb', hbit]

theorem getD_frameBytes (v : BitVec 200) (k : Nat) : (frameBytes v).getD k 0 = v.extractLsb' (8 * k) 8 :=
  getD_unpackWords 8 25 k v (by decide)

theorem getD_channelLanes (v : BitVec 176) (i : Nat) : (channelLanes v).getD i 0 = v.extractLsb' (11 * i) 11 :=
  getD_unpackWords 11 16 i v (by decide)

/-- Words driven on wires that are wide enough are read back. -/
theorem unpackWords_ofNat_packWords {w n : Nat} (l : List (BitVec w)) (h : w * l.length ≤ n) :
    unpackWords w l.length (BitVec.ofNat n (packWords l)).toNat = l := by
  have hlt : packWords l < 2 ^ n := (packWords_lt l).trans_le (Nat.pow_le_pow_right Nat.two_pos h)
  rw [BitVec.toNat_ofNat, Nat.mod_eq_of_lt hlt, unpackWords_packWords]

/-- Wires are what their words pack to. -/
theorem ofNat_packWords_unpackWords (w n : Nat) (v : BitVec (w * n)) :
    BitVec.ofNat (w * n) (packWords (unpackWords w n v.toNat)) = v := by
  rw [packWords_unpackWords, Nat.mod_eq_of_lt v.isLt, BitVec.ofNat_toNat, BitVec.setWidth_eq]

/-- The DECODE port reads the 25 bytes driven on it (R77). -/
theorem frameBytes_packWords {f : List Byte} (h : f.length = 25) : frameBytes (BitVec.ofNat 200 (packWords f)) = f := by
  simpa [frameBytes, h] using unpackWords_ofNat_packWords (n := 200) f (by omega)

/-- The RESCALE port reads the 16 codes driven on it (R78). -/
theorem channelLanes_packWords {c : List Code} (h : c.length = 16) :
    channelLanes (BitVec.ofNat 176 (packWords c)) = c := by
  simpa [channelLanes, h] using unpackWords_ofNat_packWords (n := 176) c (by rw [h]; decide)

end Sys2Proof.Machine

namespace Sys2Proof

/-! ### Event words -/

/-- The op field has eight values (R61). -/
theorem op_cases (op : BitVec 3) :
    op = 0 ∨ op = 1 ∨ op = 2 ∨ op = 3 ∨ op = 4 ∨ op = 5 ∨ op = 6 ∨ op = 7 := by
  revert op; decide

/-- The decoder compares the op field with each value in turn, and reads the data field for BYTE only (R65). -/
theorem decodeEvent_eventWord (op : BitVec 3) (d : Byte) :
    decodeEvent (eventWord op d) =
      if op = 0 then .nop else if op = 1 then .byte d else if op = 2 then .tickRaw else if op = 3 then .tickDec
      else if op = 4 then .start else if op = 5 then .stop else .reserved op := by
  simp only [decodeEvent, op_eventWord, data_eventWord]

/-- Settles O29: the decoder's equation at each value of the op field. -/
theorem eventDecoderIsTotalOnOpField : Obligations.EventDecoderIsTotalOnOpField := by
  intro op d
  refine ⟨?_, ?_, ?_, ?_, ?_, ?_, ?_⟩
  case refine_7 => rintro (rfl | rfl) <;> exact decodeEvent_eventWord _ d
  all_goals rintro rfl; exact decodeEvent_eventWord _ d

@[simp] theorem wellFormed_decode_iff (f : List Byte) : (Instr.decode f).wellFormed = true ↔ f.length = 25 := by
  simp [Instr.wellFormed, Instr.reservedOpOk, Instr.frameWidthOk, Instr.laneCountOk, Config.packetLength]

@[simp] theorem wellFormed_rescale_iff (c : List Code) : (Instr.rescale c).wellFormed = true ↔ c.length = 16 := by
  simp [Instr.wellFormed, Instr.reservedOpOk, Instr.frameWidthOk, Instr.laneCountOk, Config.nch]

open Laws.EventWordLayout in
/-- The layout of event words holds of every operation. -/
theorem eventWordLayout : ∀ i : Instr, Statement i
  | .nop => nop
  | .byte d => byte d
  | .tickRaw => tickRaw
  | .tickDec => tickDec
  | .start => start
  | .stop => stop
  | .reserved op => reserved op
  | .decode f => decode f
  | .rescale c => rescale c
  | .reset => reset

/-- The event word of a well-formed operation decodes to it. -/
theorem decodeEvent_of_encode {i : Instr} {ev : EventWord} (hw : i.wellFormed = true) (h : encode i = .event ev) :
    decodeEvent ev = i :=
  (eventWordLayout i hw ev h).1

/-- Settles O31: event words by their layout, the codec ports by reading back what is driven on them. -/
theorem decodeUndoesEncode : Obligations.DecodeUndoesEncode := by
  intro i hw
  cases i with
  | decode f => exact congrArg Instr.decode (Machine.frameBytes_packWords ((wellFormed_decode_iff f).mp hw))
  | rescale c => exact congrArg Instr.rescale (Machine.channelLanes_packWords ((wellFormed_rescale_iff c).mp hw))
  | reset => rfl
  | _ => exact decodeEvent_of_encode hw rfl

/-- A decoded event word is encoded with its data field where it is BYTE's operand, and with 0x00 otherwise. -/
theorem encode_decodeEvent (op : BitVec 3) (d : Byte) :
    encode (decodeEvent (eventWord op d)) = .event (eventWord op (if op = 1 then d else 0)) := by
  rw [decodeEvent_eventWord]
  rcases op_cases op with rfl | rfl | rfl | rfl | rfl | rfl | rfl | rfl <;> rfl

/-- An event word decodes to a well-formed operation: RESERVED is left for ops 110 and 111 only. -/
theorem decodeEvent_wellFormed (ev : EventWord) : (decodeEvent ev).wellFormed = true := by
  simp only [decodeEvent]
  rcases op_cases (EventWord.op ev) with h | h | h | h | h | h | h | h <;> rw [h] <;> rfl

/-- Settles O32: event words by their op field, the codec ports by packing what was read from them. -/
theorem encodeUndoesDecodeUpToIgnoredData : Obligations.EncodeUndoesDecodeUpToIgnoredData := by
  refine ⟨encode_decodeEvent, fun v => ?_, fun v => ?_, fun e => ?_⟩
  · exact congrArg Encoded.cdFrameIn (Machine.ofNat_packWords_unpackWords 8 25 v)
  · exact congrArg Encoded.rsChIn (Machine.ofNat_packWords_unpackWords 11 16 v)
  · cases e with
    | event ev => exact decodeEvent_wellFormed ev
    | cdFrameIn v => exact (wellFormed_decode_iff _).mpr (Machine.length_frameBytes v)
    | rsChIn v => exact (wellFormed_rescale_iff _).mpr (Machine.length_channelLanes v)
    | rst => rfl

end Sys2Proof

namespace Sys2Proof.Machine

/-! ### The unpacker, bit by bit and as a table -/

/-- A number below 2 has bit 0 only. -/
theorem testBit_of_lt_two {x : Nat} (h : x < 2) (k : Nat) : x.testBit k = (decide (k = 0) && x.testBit 0) := by
  cases k with
  | zero => simp
  | succ k => simp [Nat.testBit_lt_two_pow (h.trans_le (Nat.pow_le_pow_right Nat.two_pos (Nat.succ_pos k)))]

/-- A number built from `n` bits by shifting each to its place has these bits. -/
theorem testBit_foldl_bits {f : Nat → Nat} (hf : ∀ j, f j < 2) (n k : Nat) :
    ((List.range n).foldl (fun c j => c ||| f j <<< j) 0).testBit k = (decide (k < n) && (f k).testBit 0) := by
  induction n with
  | zero => simp
  | succ n ih =>
    rw [List.range_succ, List.foldl_append, List.foldl_cons, List.foldl_nil, Nat.testBit_or, ih,
      Nat.testBit_shiftLeft, testBit_of_lt_two (hf n)]
    rcases Nat.lt_trichotomy k n with h | rfl | h
    · simp [h, Nat.lt_succ_of_lt h, Nat.not_le.mpr h]
    · simp
    · have : k - n ≠ 0 := by omega
      have : ¬ k < n + 1 := by omega
      simp [*, Nat.not_lt.mpr h.le]

/-- A payload bit is the bit of its payload byte (R67). -/
theorem testBit_payloadBit (p : List Byte) {b : Nat} (h : b < 176) :
    (payloadBit p b).testBit 0 = (p.getD (b / 8) 0).getLsbD (b % 8) := by
  have hb : b / 8 < 22 := by omega
  simp [payloadBit, Config.payloadLen, hb, BitVec.getLsbD, Nat.testBit_eq_decide_div_mod_eq, Nat.shiftRight_eq_div_pow]

/-- Bit `j` of channel `i` is payload bit `11i + j` (R68). -/
theorem getLsbD_unpackCode (p : List Byte) {i j : Nat} (hi : i < 16) (hj : j < 11) :
    (unpackCode p i).getLsbD j = (p.getD ((11 * i + j) / 8) 0).getLsbD ((11 * i + j) % 8) := by
  rw [unpackCode, BitVec.getLsbD_ofNat, testBit_foldl_bits fun j => payloadBit_lt_two p _,
    testBit_payloadBit p (by simp only [Config.chW]; omega)]
  simp [Config.chW, hj]

theorem getD_unpack (p : List Byte) {i : Nat} (hi : i < 16) : (unpack p).getD i 0 = unpackCode p i := by
  simp [unpack, Config.nch, hi]

/-- Settles O22: a channel is built from its payload bits. -/
theorem channelBitsArePayloadBits : Obligations.ChannelBitsArePayloadBits := by
  intro p _
  refine ⟨length_unpack p, fun i j hi hj => ?_⟩
  rw [getD_unpack p hi, getLsbD_unpackCode p hi hj]

/-- A bit of a channel as a number is the bit of the payload byte at its place. -/
theorem testBit_unpackCode (p : List Byte) {i j k r : Nat} (hi : i < 16) (hj : j < 11) (hr : r < 8)
    (h : 11 * i + j = 8 * k + r) : (unpackCode p i).toNat.testBit j = (payloadByte p k).testBit r := by
  have hdiv : (11 * i + j) / 8 = k := by omega
  have hmod : (11 * i + j) % 8 = r := by omega
  rw [BitVec.testBit_toNat, getLsbD_unpackCode p hi hj, hdiv, hmod]
  rfl

/-- A channel has 11 bits. -/
theorem testBit_unpackCode_of_le (p : List Byte) (i : Nat) {j : Nat} (h : 11 ≤ j) :
    (unpackCode p i).toNat.testBit j = false :=
  BitVec.getLsbD_of_ge _ j h

/-- A payload byte has 8 bits. -/
theorem testBit_payloadByte_of_le (p : List Byte) (k : Nat) {r : Nat} (h : 8 ≤ r) : (payloadByte p k).testBit r = false :=
  BitVec.getLsbD_of_ge _ r h

/-- A channel that starts at bit `s` of byte `k` and ends in the next byte: the upper bits of the one, then the lower bits of
the other. -/
theorem unpackCode_of_two_bytes (p : List Byte) {i : Nat} (k s : Nat) (hi : i < 16) (hk : 11 * i = 8 * k + s) (hs : s ≤ 5) :
    (unpackCode p i).toNat =
      payloadByte p k >>> s ||| (payloadByte p (k + 1) &&& (2 ^ (s + 3) - 1)) <<< (8 - s) := by
  apply Nat.eq_of_testBit_eq
  intro j
  simp only [Nat.testBit_or, Nat.testBit_shiftRight, Nat.testBit_shiftLeft, Nat.testBit_and, Nat.testBit_two_pow_sub_one]
  by_cases h0 : s + j < 8
  · rw [testBit_unpackCode p hi (by omega) h0 (k := k) (by omega)]
    simp [show ¬ 8 - s ≤ j by omega]
  rw [testBit_payloadByte_of_le p k (Nat.not_lt.mp h0)]
  by_cases hj : j < 11
  · rw [testBit_unpackCode p hi hj (k := k + 1) (r := j - (8 - s)) (by omega) (by omega)]
    simp [show 8 - s ≤ j by omega, show j - (8 - s) < s + 3 by omega]
  · rw [testBit_unpackCode_of_le p i (Nat.not_lt.mp hj)]
    simp [show ¬ j - (8 - s) < s + 3 by omega]

/-- A channel that starts at bit `s` of byte `k` and ends in the byte after the next. -/
theorem unpackCode_of_three_bytes (p : List Byte) {i : Nat} (k s : Nat) (hi : i < 16) (hk : 11 * i = 8 * k + s)
    (hs : 5 < s) (hs8 : s < 8) :
    (unpackCode p i).toNat =
      payloadByte p k >>> s ||| payloadByte p (k + 1) <<< (8 - s) |||
        (payloadByte p (k + 2) &&& (2 ^ (s - 5) - 1)) <<< (16 - s) := by
  apply Nat.eq_of_testBit_eq
  intro j
  simp only [Nat.testBit_or, Nat.testBit_shiftRight, Nat.testBit_shiftLeft, Nat.testBit_and, Nat.testBit_two_pow_sub_one]
  by_cases h0 : s + j < 8
  · rw [testBit_unpackCode p hi (by omega) h0 (k := k) (by omega)]
    simp [show ¬ 8 - s ≤ j by omega, show ¬ 16 - s ≤ j by omega]
  rw [testBit_payloadByte_of_le p k (Nat.not_lt.mp h0)]
  by_cases h1 : s + j < 16
  · rw [testBit_unpackCode p hi (by omega) (k := k + 1) (r := j - (8 - s)) (by omega) (by omega)]
    simp [show 8 - s ≤ j by omega, show ¬ 16 - s ≤ j by omega]
  rw [testBit_payloadByte_of_le p (k + 1) (r := j - (8 - s)) (by omega)]
  by_cases hj : j < 11
  · rw [testBit_unpackCode p hi hj (k := k + 2) (r := j - (16 - s)) (by omega) (by omega)]
    simp [show 16 - s ≤ j by omega, show j - (16 - s) < s - 5 by omega]
  · rw [testBit_unpackCode_of_le p i (Nat.not_lt.mp hj)]
    simp [show ¬ j - (16 - s) < s - 5 by omega]

/-- The mask of all 8 bits of a payload byte, which the table does not write. -/
theorem payloadByte_and_255 (p : List Byte) (k : Nat) : payloadByte p k &&& 255 = payloadByte p k := by
  rw [Nat.and_two_pow_sub_one_eq_mod _ 8]
  exact Nat.mod_eq_of_lt (BitVec.isLt _)

/-- Settles O23: row by row, a channel lies in two or three neighbouring bytes. -/
theorem unpackIsChannelToByteTable : Obligations.UnpackIsChannelToByteTable := by
  intro p _
  have hrows : unpack p = [unpackCode p 0, unpackCode p 1, unpackCode p 2, unpackCode p 3, unpackCode p 4, unpackCode p 5,
    unpackCode p 6, unpackCode p 7, unpackCode p 8, unpackCode p 9, unpackCode p 10, unpackCode p 11, unpackCode p 12,
    unpackCode p 13, unpackCode p 14, unpackCode p 15] := rfl
  have two := fun i k s => @unpackCode_of_two_bytes p i k s
  have three := fun i k s => @unpackCode_of_three_bytes p i k s
  simp [hrows, channelTable, payloadByte_and_255, two 0 0 0, two 1 1 3, three 2 2 6, two 3 4 1, two 4 5 4, three 5 6 7,
    two 6 8 2, two 7 9 5, two 8 11 0, two 9 12 3, three 10 13 6, two 11 15 1, two 12 16 4, three 13 17 7, two 14 19 2,
    two 15 20 5]

/-! ### The codec ports in a step -/

/-- Only DECODE and RESCALE write the codec results. -/
theorem exec_keeps_codec_results {i : Instr} {s t : State} (h : exec i s = .next t) (hd : ∀ f, i ≠ .decode f)
    (hr : ∀ c, i ≠ .rescale c) : t.out.cd = s.out.cd ∧ t.out.rs = s.out.rs := by
  rcases exec_cases h with ⟨d, -, -, rfl⟩ | ⟨-, -, -, rfl⟩ | ⟨c, -, -, -, rfl⟩ | ⟨-, rfl⟩ | ⟨-, rfl⟩ | ⟨-, rfl⟩ |
    ⟨f, rfl, -⟩ | ⟨c, rfl, -⟩ | ⟨-, rfl⟩
  pick_goal 7; exact absurd rfl (hd f)
  pick_goal 7; exact absurd rfl (hr c)
  all_goals simp

/-- A step shows the codec results of its port values, whatever its event (R77, R78, 40_codec.md R90). -/
theorem advance_codec_results {p : PortInput} {s t : State} (h : advance p s = .next t) :
    t.out.cd = some (decodeFrame (frameBytes p.cdFrameIn)) ∧ t.out.rs = some (rescaleAll (channelLanes p.rsChIn)) :=
  exec_keeps_codec_results (s := atPorts p s) h (instr_ne_decode p) (instr_ne_rescale p)

/-- On the wires the unpacker is a re-labelling (R71). -/
theorem packWords_unpack {p : List Byte} (h : p.length = 22) : packWords (unpack p) = packWords p := by
  apply Nat.eq_of_testBit_eq
  intro b
  rw [testBit_packWords_divMod (by decide), testBit_packWords_divMod (by decide)]
  by_cases hb : b < 176
  · have hi : b / 11 < 16 := by omega
    rw [getD_unpack p hi, getLsbD_unpackCode p hi (Nat.mod_lt b (by decide)), Nat.div_add_mod]
  · have hbyte : p.length ≤ b / 8 := by omega
    have hcode : (unpack p).length ≤ b / Config.chW := by rw [length_unpack]; simp only [Config.chW]; omega
    simp [List.getElem?_eq_none hbyte, List.getElem?_eq_none hcode]

@[simp] theorem length_payload_frameBytes (v : BitVec 200) : (payload (frameBytes v)).length = 22 := by
  simp [payload_eq]

/-- Byte `k` of the payload is frame byte `k + 1` (R66). -/
theorem getD_payload (f : List Byte) {k : Nat} (h : k < 22) : (payload f).getD k 0 = f.getD (k + 1) 0 := by
  simp [payload_eq, h]

/-- The payload read from the DECODE port is its bits 8 to 183. -/
theorem ofNat_packWords_payload (v : BitVec 200) :
    BitVec.ofNat 176 (packWords (payload (frameBytes v))) = v.extractLsb' 8 176 := by
  ext b hb
  have hbyte : b / 8 < 22 := by omega
  have hbit : 8 * (b / 8 + 1) + b % 8 = 8 + b := by omega
  rw [BitVec.getElem_extractLsb', ← BitVec.getLsbD_eq_getElem, BitVec.getLsbD_ofNat,
    testBit_packWords_divMod (by decide), getD_payload _ hbyte, getD_frameBytes, BitVec.getLsbD_extractLsb', hbit]
  simp [hb, Nat.mod_lt]

/-- The DECODE port accepts a frame exactly when both markers stand on its end bytes. -/
theorem frameShape_frameBytes_iff (v : BitVec 200) :
    frameShape (frameBytes v) = true ↔ v.extractLsb' 0 8 = 0x0F ∧ v.extractLsb' 192 8 = 0x00 := by
  simp only [frameShape_iff, getD_frameBytes, length_frameBytes, true_and]

/-- The wires of the DECODE port are decided by its result. -/
theorem decode_wires {v : BitVec 200} {t : State} (h : t.out.cd = some (decodeFrame (frameBytes v))) :
    cdChOut t = BitVec.ofNat 176 (packWords (payload (frameBytes v))) ∧
      (cdFmtErr t = true ↔ frameShape (frameBytes v) ≠ true) := by
  cases hshape : frameShape (frameBytes v) with
  | true =>
    rw [decodeFrame_of_shape hshape] at h
    simp [cdChOut, cdFmtErr, h, packWords_unpack]
  | false =>
    rw [decodeFrame_of_not_shape hshape] at h
    simp [cdChOut, cdFmtErr, h]

/-- Settles O25: the wires show the payload bits whether the frame is accepted or not, and the error bit its shape. -/
theorem decodePortRelabelsWires : Obligations.DecodePortRelabelsWires := by
  intro p s
  obtain ⟨t, ht⟩ := advance_total p s
  obtain ⟨hch, herr⟩ := decode_wires (advance_codec_results ht).1
  refine ⟨t, ht, hch.trans (ofNat_packWords_payload _), ?_⟩
  rw [herr, Ne, frameShape_frameBytes_iff, not_and_or]

/-- The rescaler on integers stays in range (40_codec.md R98). -/
theorem rescaleInt_bounds (v : Int) : 1000 ≤ rescaleInt v ∧ rescaleInt v ≤ 2000 := by
  rw [rescaleInt_eq]
  split <;> omega

/-- No bit of a pulse width is lost in its 11 wires (R72). -/
theorem toNat_rescale1 (v : Code) : ((rescale1 v).toNat : Int) = rescaleInt v.toNat := by
  have h := rescaleInt_bounds v.toNat
  rw [rescale1, BitVec.toNat_ofInt]
  omega

theorem rescale1_bounds (v : Code) : 1000 ≤ (rescale1 v).toNat ∧ (rescale1 v).toNat ≤ 2000 := by
  have h := rescaleInt_bounds v.toNat
  rw [← toNat_rescale1] at h
  omega

/-- Lane `i` of the pulse widths shown in a step is that of the lane of the step's input. -/
theorem advance_rsPwOut_lane {p : PortInput} {s t : State} (h : advance p s = .next t) {i : Nat} (hi : i < 16) :
    (rsPwOut t).extractLsb' (11 * i) 11 = rescale1 (p.rsChIn.extractLsb' (11 * i) 11) := by
  have hrs := (advance_codec_results h).2
  rw [rescaleAll_of_length (length_channelLanes _)] at hrs
  have hwires : rsPwOut t = BitVec.ofNat 176 (packWords ((channelLanes p.rsChIn).map rescale1)) := by
    simp [rsPwOut, hrs]
  rw [hwires, extractLsb'_packWords _ (by omega), ← getD_channelLanes]
  simp [hi]

/-- Settles O26: each lane is `Rescale1` of its own lane, and `Rescale1` stays in range. -/
theorem rescalePortWorksLaneByLane : Obligations.RescalePortWorksLaneByLane := by
  intro p s
  obtain ⟨t, ht⟩ := advance_total p s
  refine ⟨t, ht, fun i hi => ?_⟩
  rw [advance_rsPwOut_lane ht hi]
  exact ⟨rfl, rescale1_bounds _⟩

/-! ### The message ports -/

/-- The wires of an emitted frame (R73). -/
theorem frData_of_frame {t : State} {f : List Byte} (h : t.out.fr = some f) : frData t = BitVec.ofNat 200 (packWords f) := by
  simp [frData, h]

/-- Settles O33: an emitted frame has 25 bytes and both markers, and each byte is a lane of the port. -/
theorem framePortCarriesEmittedFrame : Obligations.FramePortCarriesEmittedFrame := by
  intro d s ha
  refine ⟨_, exec_byte_active ha d, fun f hf => ?_, fun hf => by rw [frValid, hf]; rfl⟩
  obtain ⟨-, hlen, hstart, hend, -⟩ := framerStep_emits ((ingestByte_out_fr 256 d s).symm.trans hf)
  have hlane : ∀ k, k < 25 → (frData (ingestByte 256 d s)).extractLsb' (8 * k) 8 = f.getD k 0 := by
    intro k hk
    rw [frData_of_frame hf, extractLsb'_packWords f (by omega)]
  exact ⟨by rw [frValid, hf]; rfl, hlen, hlane, (hlane 0 (by decide)).trans hstart, (hlane 24 (by decide)).trans hend⟩

/-- The length field has room for every batch within its bound (R74). -/
theorem toNat_rawLen {t : State} {b : List Byte} (h : t.out.raw = some b) (hb : b.length ≤ 256) :
    (rawLen t).toNat = b.length := by
  have hlt : b.length < 2 ^ Config.rawLenW := by simp only [Config.rawLenW]; omega
  simp [rawLen, rawLenWires, h, Nat.mod_eq_of_lt hlt]

/-- Byte `k` of a published batch is lane `k` of the port, and the lanes past its end are 0 (R74). -/
theorem rawData_lane {t : State} {b : List Byte} (h : t.out.raw = some b) {k : Nat} (hk : k < 256) :
    (rawData t).extractLsb' (8 * k) 8 = b.getD k 0 := by
  have hwires : rawData t = BitVec.ofNat 2048 (packWords b) := by simp [rawData, rawDataWires, h]
  rw [hwires, extractLsb'_packWords b (by omega)]

/-- Settles O34: the port of the batch that TICK_RAW publishes. -/
theorem rawPortCarriesPublishedBatch : Obligations.RawPortCarriesPublishedBatch := by
  intro s ha hne hlen
  have hlane := fun k => @rawData_lane (({ s with batch := [] } : State).emit none (some s.batch) none) s.batch rfl k
  refine ⟨_, exec_tickRaw_publishes ha hne, rfl, toNat_rawLen rfl hlen, ?_, fun k hk => hlane k (by omega), ?_⟩
  · rw [toNat_rawLen rfl hlen]
    exact List.length_pos_iff.mpr hne
  · intro k hle hk
    rw [hlane k hk, List.getD_eq_default _ _ hle]

/-- Lane `i` of 16 bits of a published decoded frame is its code, zero-extended (R75). -/
theorem decCh_lane {t : State} {c : ChannelSet} {ts : Timestamp} (h : t.out.dec = some (decMessage c ts)) {i : Nat}
    (hi : i < 16) : (decCh t).extractLsb' (16 * i) 16 = (c.getD i 0).setWidth 16 := by
  have hwires : decCh t = BitVec.ofNat 256 (packWords (c.map (BitVec.setWidth 16))) := by simp [decCh, h, decMessage]
  rw [hwires, extractLsb'_packWords _ (by omega)]
  exact List.getD_map c 0 (BitVec.setWidth 16)

/-- A lane of 16 bits that holds a zero-extended code: the code below, five zero bits above. -/
theorem code_of_lane {n k : Nat} {v : BitVec n} {x : Code} (h : v.extractLsb' k 16 = x.setWidth 16) :
    v.extractLsb' k 11 = x ∧ v.extractLsb' (k + 11) 5 = 0 := by
  have hbit : ∀ j, j < 16 → v.getLsbD (k + j) = x.getLsbD j := by
    intro j hj
    simpa [BitVec.getLsbD_extractLsb', hj] using congrArg (BitVec.getLsbD · j) h
  constructor
  · ext j hj
    rw [BitVec.getElem_extractLsb', hbit j (by omega), BitVec.getLsbD_eq_getElem hj]
  · ext j hj
    rw [BitVec.getElem_extractLsb', Nat.add_assoc, hbit (11 + j) (by omega), BitVec.getLsbD_of_ge x _ (Nat.le_add_right 11 j)]
    simp

/-- Settles O35: the port of the slot that TICK_DEC publishes. -/
theorem decodedPortCarriesPublishedSlot : Obligations.DecodedPortCarriesPublishedSlot := by
  intro s c ha hc _
  exact ⟨_, exec_tickDec_publishes ha hc, rfl, rfl, fun i hi => code_of_lane (decCh_lane rfl hi)⟩

/-- What the framer emits is a Frame (R66). -/
theorem isFrame_of_framerStep {b f : List Byte} {d : Byte} (h : (framerStep b d).2 = some f) : IsFrame f := by
  obtain ⟨-, hlen, hstart, hend, -⟩ := framerStep_emits h
  have h0 : 0 < f.length := by omega
  have h24 : 24 < f.length := by omega
  refine ⟨hlen, ?_, ?_⟩
  · simpa [h0] using hstart
  · simpa [h24] using hend

theorem wellShaped_of_noMessage {o : Outputs} (h : o.NoMessage) : o.WellShaped := by
  obtain ⟨hfr, hraw, hdec⟩ := h
  simp [Outputs.WellShaped, hfr, hraw, hdec]

/-- A decoded message carries as many codes as the ChannelSet, none above 2047. -/
theorem decMessage_channels_le {c : ChannelSet} {ts : Timestamp} :
    ∀ x ∈ (decMessage c ts).channels, x.toNat ≤ 2047 := by
  intro x hx
  obtain ⟨y, -, rfl⟩ := List.mem_map.mp hx
  have hy : y.toNat < 2 ^ 11 := y.isLt
  rw [BitVec.toNat_setWidth]
  omega

/-- From a state that meets the invariant, the messages of a step on given port values have the form the ports give them. -/
theorem advance_wellShaped {p : PortInput} {s t : State} (hs : s.Inv) (h : advance p s = .next t) : t.out.WellShaped := by
  obtain ⟨-, hbatch, hslot, -⟩ := hs
  rw [advance_eq] at h
  rcases exec_cases h with ⟨d, -, -, rfl⟩ | ⟨-, -, hne, rfl⟩ | ⟨c, -, -, hc, rfl⟩ | ⟨-, rfl⟩ | ⟨-, rfl⟩ | ⟨-, rfl⟩ |
    ⟨f, hi, -⟩ | ⟨c, hi, -⟩ | ⟨-, rfl⟩
  · exact ⟨fun f hf => isFrame_of_framerStep ((ingestByte_out_fr _ _ _).symm.trans hf), by simp, by simp⟩
  · refine ⟨by simp, fun b hb => ?_, by simp⟩
    cases hb
    exact ⟨List.length_pos_iff.mpr hne, hbatch⟩
  · refine ⟨by simp, by simp, fun m hm => ?_⟩
    cases hm
    exact ⟨by simpa [decMessage] using hslot c hc, decMessage_channels_le⟩
  pick_goal 4; exact absurd hi (instr_ne_decode p f)
  pick_goal 4; exact absurd hi (instr_ne_rescale p c)
  all_goals exact wellShaped_of_noMessage ⟨rfl, rfl, rfl⟩

/-- Settles O42: a step advances on the next port values. -/
theorem messagesAreWellShaped : Obligations.MessagesAreWellShaped := by
  intro s hs
  obtain ⟨t, ht⟩ := advance_total s.nextInput s.dropInput
  exact ⟨t, ht, advance_wellShaped (s := s.dropInput) hs ht⟩

/-! ### The event script -/

/-- The event of port values whose event is `{op, data}` is that word's (R60, R79). -/
theorem instr_withEvent {w : Nat} (base : PortInput w) (op : BitVec 3) (d : Byte) :
    (base.withEvent op d).instr = decodeEvent (eventWord op d) := rfl

@[simp] theorem instr_byteInput {w : Nat} (base : PortInput w) (b : Byte) : (byteInput base b).instr = .byte b := by
  rw [byteInput, instr_withEvent, decodeEvent_eventWord]
  rfl

/-- The events of the port values of BYTE events. -/
theorem map_instr_byteInput {w : Nat} (base : PortInput w) (bs : List Byte) :
    (bs.map (byteInput base)).map PortInput.instr = bs.map Instr.byte := by
  simp

theorem asmByte_of_lt {b : Nat} (h : b < 256) : asmByte b = .ok (BitVec.ofNat 8 b) := by
  simp [asmByte, h]

theorem asmByte_of_le {b : Nat} (h : 256 ≤ b) : asmByte b = .error .byteOutOfRange := by
  simp [asmByte, Nat.not_lt.mpr h]

/-- The assembler takes the number of every byte. -/
@[simp] theorem asmByte_toNat (b : Byte) : asmByte b.toNat = .ok b := by
  rw [asmByte_of_lt b.isLt, BitVec.ofNat_toNat, BitVec.setWidth_eq]

/-- The assembler takes the number of every channel code. -/
@[simp] theorem asmCode_toNat (c : Code) : asmCode c.toNat = .ok c := by
  have hc : c.toNat < 2048 := c.isLt
  have hle : c.toNat ≤ Config.chMax := by simp only [Config.chMax]; omega
  rw [asmCode, if_pos hle, BitVec.ofNat_toNat, BitVec.setWidth_eq]

/-- A check that every element passes lets the whole list pass. -/
theorem mapM_map_ok {α β γ ε : Type} {g : α → β} {f : β → Except ε γ} {r : α → γ} (h : ∀ x, f (g x) = .ok (r x))
    (l : List α) : (l.map g).mapM f = .ok (l.map r) := by
  induction l with
  | nil => rfl
  | cons x xs ih => rw [List.map_cons, List.mapM_cons, h, ih]; rfl

/-- The numbers of bytes assemble to one BYTE event each (R83). -/
theorem asmBytes_toNat {w : Nat} (base : PortInput w) (bs : List Byte) :
    asmBytes base (bs.map BitVec.toNat) = .ok (bs.map (byteInput base)) :=
  mapM_map_ok (fun b => by rw [asmByte_toNat]; rfl) bs

/-- The events of `frame`: the 25 bytes of the frame (R83). -/
theorem assembleLine_frame {w : Nat} (base : PortInput w) {p : List Byte} (flag : Byte) (h : p.length = 22) :
    assembleLine base (.frame (p.map BitVec.toNat) flag.toNat) = .ok ((frameOf p flag).map (byteInput base)) := by
  have hp : (p.map BitVec.toNat).mapM asmByte = .ok p := by simpa using mapM_map_ok (r := id) asmByte_toNat p
  rw [assembleLine, List.length_map, if_pos (show p.length = Config.payloadLen from h), hp, asmByte_toNat]
  rfl

/-- The events of `frame.ch`: the 25 bytes of the frame with the packed codes (R83). -/
theorem assembleLine_frameCh {w : Nat} (base : PortInput w) {c : List Code} (flag : Byte) (h : c.length = 16) :
    assembleLine base (.frameCh (c.map BitVec.toNat) flag.toNat) = .ok ((frameOf (pack c) flag).map (byteInput base)) := by
  have hc : (c.map BitVec.toNat).mapM asmCode = .ok c := by simpa using mapM_map_ok (r := id) asmCode_toNat c
  rw [assembleLine, List.length_map, if_pos (show c.length = Config.nch from h), hc, asmByte_toNat]
  rfl

/-- `rep` is the copies of one byte, none for a count of 0 (R83). -/
theorem assembleLine_rep {w : Nat} (base : PortInput w) (n : Nat) (b : Byte) :
    assembleLine base (.rep n b.toNat) = .ok ((List.replicate n b).map (byteInput base)) := by
  rw [← asmBytes_toNat, List.map_replicate]
  rfl

/-- `bytes` of at least one byte (R83). -/
theorem assembleLine_bytes {w : Nat} (base : PortInput w) {bs : List Byte} (h : bs ≠ []) :
    assembleLine base (.bytes (bs.map BitVec.toNat)) = .ok (bs.map (byteInput base)) := by
  rw [assembleLine, if_neg (by simpa using h), asmBytes_toNat]

/-- `chunk` of at least one byte is `bytes` (R83). -/
theorem assembleLine_chunk {w : Nat} (base : PortInput w) (bs : List Nat) :
    assembleLine base (.chunk bs) = assembleLine base (.bytes bs) := rfl

/-- Settles O60: each pseudo-instruction is the BYTE events of a list of bytes. -/
theorem framePseudoInstructionsExpand : Obligations.FramePseudoInstructionsExpand := by
  intro base p c flag b n hp hc
  have events : ∀ {line : ScriptLine} {bs : List Byte}, assembleLine base line = .ok (bs.map (byteInput base)) →
      (assembleLine base line).map (List.map PortInput.instr) = .ok (bs.map Instr.byte) :=
    fun h => by rw [h, Except.map, map_instr_byteInput]
  refine ⟨events (assembleLine_frame base flag hp), events (assembleLine_frameCh base flag hc), ?_, fun bs hbs => ?_⟩
  · rw [events (assembleLine_rep base n b), List.map_replicate]
  · rw [assembleLine_chunk]
    exact ⟨events (assembleLine_bytes base hbs), events (assembleLine_bytes base hbs)⟩

/-- Settles O59: each line by its equation, a byte or timestamp by its range. -/
theorem scriptLinesAssembleToEventWords : Obligations.ScriptLinesAssembleToEventWords := by
  intro base b ts
  refine ⟨rfl, fun h => ?_, fun h => ?_, rfl, fun h => ?_, rfl, rfl, rfl, rfl, rfl, fun op d h => ?_⟩
  · simp only [assembleLine, asmBytes, List.mapM_cons, asmByte_of_lt h]
    rfl
  · simp only [assembleLine, asmBytes, List.mapM_cons, asmByte_of_le h]
    rfl
  · exact if_pos h
  · exact if_pos h

/-! ### Steps that present no event, a reset, or a placed word -/

/-- Settles O2: the pin `rst` makes RESET the operation of the step. -/
theorem resetStepIgnoresEventAndClears : Obligations.ResetStepIgnoresEventAndClears := by
  intro p s hrst
  have hreset : p.instr = .reset := if_pos hrst
  refine ⟨(atPorts p s).clearBlock.quiet, ?_, rfl, rfl, rfl, rfl, rfl, rfl, rfl, rfl⟩
  rw [advance_eq, hreset, exec_reset]

/-- An idle step and a step with op 000 have the effect of NOP (R63). -/
theorem instr_eq_nop {w : Nat} {p : PortInput w} (hrst : p.rst = false) (h : p.evValid = false ∨ p.evOp = 0) :
    p.instr = .nop := by
  rcases h with h | h
  · simp [PortInput.instr, hrst, h]
  · simp [PortInput.instr, hrst, decodeEvent_eventWord, h]

/-- Settles O7: NOP shows no message and writes nothing else. -/
theorem nopAndIdleStepChangeNothing : Obligations.NopAndIdleStepChangeNothing := by
  intro s
  refine ⟨⟨s.quiet, exec_nop s, rfl, ⟨rfl, rfl, rfl⟩, ⟨rfl, rfl, rfl, rfl, rfl⟩, rfl⟩, fun p hrst h => ?_⟩
  refine ⟨(atPorts p s).quiet, ?_, rfl, ⟨rfl, rfl, rfl⟩, rfl⟩
  rw [advance_eq, instr_eq_nop hrst h, exec_nop]

/-- The two bytes of an event word, low byte first, are read as its operation (log entry 7). -/
theorem decodeTableWord_eventWord (ev : EventWord) : decodeTableWord 16 ev.toNat = some (decodeEvent ev) := by
  have hev : ev.toNat < 2048 := ev.isLt
  have hbytes : (BitVec.ofNat 8 ev.toNat).toNat + 256 * (BitVec.ofNat 8 (ev.toNat / 256)).toNat = ev.toNat := by
    simp only [BitVec.toNat_ofNat]
    omega
  have hdecode : decodeBytes [BitVec.ofNat 8 ev.toNat, BitVec.ofNat 8 (ev.toNat / 256)] = .ok (decodeEvent ev, []) := by
    simp only [decodeBytes, hbytes, if_pos hev]
    rw [BitVec.ofNat_toNat, BitVec.setWidth_eq]
  have hword : ev.toNat < 65536 := by omega
  rw [decodeTableWord, if_neg (by decide), if_neg (by decide), hdecode]
  exact if_pos hword

/-- A placed event word is the event of the very next port values (log entry 9). -/
theorem step_withFetchWord (s : State) (ev : EventWord) :
    step (s.withFetchWord 16 ev.toNat) =
      exec (decodeEvent ev) (atPorts ((undrivenInput s.pos).withEncoded (.event ev)) s) := by
  have hplace : s.withFetchWord 16 ev.toNat = s.pushInput ((undrivenInput s.pos).withEncoded (.event ev)) := by
    simp [State.withFetchWord, fetchWord]
  have hinstr : ((undrivenInput s.pos).withEncoded (.event ev) : PortInput).instr = decodeEvent ev := by
    simp [PortInput.withEncoded, instr_withEvent]
  rw [hplace, step_eq_advance, State.nextInput_pushInput, State.dropInput_pushInput, advance_eq, hinstr]

/-- Settles O37: the word is read and run as the operation that its layout gives. -/
theorem placedWordRunsNext : Obligations.PlacedWordRunsNext := by
  intro i ev s hw h
  have hi : decodeEvent ev = i := decodeEvent_of_encode hw h
  rw [decodeTableWord_eventWord, step_withFetchWord, hi]
  exact ⟨rfl, _, rfl, rfl, rfl, rfl, rfl, rfl, rfl, rfl⟩

end Sys2Proof.Machine

/-! ## The ChannelCodec: its ports, Pack and Unpack, and the rescaler (40_codec.md) -/

namespace Sys2Proof.Machine

/-! ### Pack and Unpack -/

/-- Two lists of as many words are equal when their packed numbers are. -/
theorem eq_of_packWords_eq {w : Nat} {l m : List (BitVec w)} (hlen : l.length = m.length)
    (h : packWords l = packWords m) : l = m := by
  rw [← unpackWords_packWords l, hlen, h, unpackWords_packWords]

/-- On the wires Pack is a re-labelling too: 16 codes of 11 bits are 22 bytes (R100). -/
theorem packWords_pack {c : ChannelSet} (h : c.length = 16) : packWords (pack c) = packWords c := by
  have hlt : packWords c < 2 ^ (11 * c.length) := packWords_lt c
  rw [h] at hlt
  exact (packWords_unpackWords 8 22 _).trans (Nat.mod_eq_of_lt hlt)

/-- Settles O24: both directions keep the packed number, and the lists have the same length. -/
theorem packAndUnpackAreInverse : Obligations.PackAndUnpackAreInverse := by
  refine ⟨fun c hc => ⟨length_pack c, ?_⟩, fun p hp => ⟨length_unpack p, ?_⟩⟩
  · have hnum : packWords (unpack (pack c)) = packWords c :=
      (packWords_unpack (length_pack c)).trans (packWords_pack hc)
    exact eq_of_packWords_eq (by rw [length_unpack, hc]) hnum
  · have hnum : packWords (pack (unpack p)) = packWords p :=
      (packWords_pack (length_unpack p)).trans (packWords_unpack hp)
    exact eq_of_packWords_eq (by rw [length_pack, hp]) hnum

/-! ### The rescaler -/

/-- The rescaler on a code, in natural numbers (R95). -/
theorem rescale1_toNat (v : Code) : (rescale1 v).toNat =
    if v.toNat ≤ 172 then 1000 else min 2000 (1000 + (2000 * (v.toNat - 172) + 1639) / 3278) := by
  have h := toNat_rescale1 v
  rw [rescaleInt_eq] at h
  split at h <;> split <;> omega

/-- The source's formula has exactly one nearest integer: a value half way between two would make the odd 1639 even. -/
theorem nearest_iff_eq_rounded (n r : Int) :
    2 * |1639 * (r - 1000) - 1000 * n| ≤ 1639 ↔ r = 1000 + (2000 * n + 1639) / 3278 := by
  have habs : 2 * |1639 * (r - 1000) - 1000 * n| ≤ 1639 ↔
      -1639 ≤ 2 * (1639 * (r - 1000) - 1000 * n) ∧ 2 * (1639 * (r - 1000) - 1000 * n) ≤ 1639 := by
    rw [← abs_le, abs_mul, abs_two]
  rw [habs]
  omega

/-- The rescaler is the rounded value put in range: the test for codes up to 172 is what the lower bound gives. -/
theorem rescaleInt_eq_clamp (v : Int) :
    rescaleInt v = min 2000 (max 1000 (1000 + (2000 * (v - 172) + 1639) / 3278)) := by
  rw [rescaleInt_eq]
  split <;> omega

/-- Settles O27: the nearest integer is the rounded value that the rescaler puts in range. -/
theorem rescaleIsEveryNearestRounding : Obligations.RescaleIsEveryNearestRounding := by
  refine fun v => ⟨⟨_, (nearest_iff_eq_rounded _ _).mpr rfl⟩, fun r hr => ?_⟩
  rw [(nearest_iff_eq_rounded _ r).mp hr, toNat_rescale1, rescaleInt_eq_clamp]

/-- The rescaler never falls (R98). -/
theorem rescale1_monotone {v w : Code} (h : v.toNat ≤ w.toNat) : (rescale1 v).toNat ≤ (rescale1 w).toNat := by
  rw [rescale1_toNat, rescale1_toNat]
  split <;> split <;> omega

/-- The lower end is constant up to its anchor (R98). -/
theorem rescale1_of_le {v : Code} (h : v.toNat ≤ 172) : (rescale1 v).toNat = 1000 := by
  rw [rescale1_toNat, if_pos h]

/-- The upper end is constant from its anchor on (R98). -/
theorem rescale1_of_ge {v : Code} (h : 1811 ≤ v.toNat) : (rescale1 v).toNat = 2000 := by
  rw [rescale1_toNat, if_neg (by omega)]
  omega

/-- Settles O28: the anchors are the first codes of the constant ends. -/
theorem rescaleIsMonotoneAndClamped : Obligations.RescaleIsMonotoneAndClamped :=
  ⟨rescale1_bounds, fun _ _ => rescale1_monotone, rescale1_of_le (by decide), rescale1_of_ge (by decide),
    fun _ => rescale1_of_le, fun _ => rescale1_of_ge⟩

/-! ### DECODE and RESCALE as operations -/

/-- Settles O20: RESCALE shows its result, whose lanes are the rescaler's numbers. -/
theorem rescaleAnswersLanesOrShapeError : Obligations.RescaleAnswersLanesOrShapeError := by
  refine fun c s => ⟨_, exec_rescale c s, fun h => ?_, fun h => ?_, rfl⟩
  · have hlane : rescale1 = fun v => BitVec.ofNat 11
        (if v.toNat ≤ 172 then 1000 else min 2000 (1000 + (2000 * (v.toNat - 172) + 1639) / 3278)) := by
      funext v
      rw [← rescale1_toNat, BitVec.ofNat_toNat, BitVec.setWidth_eq]
    rw [State.showRescale_out_rs, rescaleAll_of_length h, hlane]
  · rw [State.showRescale_out_rs, rescaleAll_of_length_ne h]

/-- The codec's shape check accepts the Frames and nothing else (30_encoding.md R66). -/
theorem frameShape_iff_isFrame (f : List Byte) : frameShape f = true ↔ IsFrame f := by
  rw [frameShape_iff]
  refine and_congr_right fun hlen => ?_
  have h0 : 0 < f.length := by omega
  have h24 : 24 < f.length := by omega
  simp [h0, h24]

/-- Settles O19: DECODE shows its result, which the shape of the candidate decides. -/
theorem decodeAnswersChannelSetOrFormatError : Obligations.DecodeAnswersChannelSetOrFormatError := by
  refine fun f s => ⟨_, exec_decode f s, fun h => ?_, fun h => ?_, rfl⟩
  · rw [State.showDecode_out_cd, decodeFrame_of_shape ((frameShape_iff_isFrame f).mpr h), payload_eq]
  · rw [← frameShape_iff_isFrame, Bool.not_eq_true] at h
    rw [State.showDecode_out_cd, decodeFrame_of_not_shape h]

/-! ### The codec ports beside the event of the step -/

/-- The state with other port values and other results on the codec ports. -/
def State.withCodec (s : State) (q : PortInput) (cd : Option (Except FormatError ChannelSet))
    (rs : Option (Except ShapeError PulseWidths)) : State :=
  { s with port := q, out := { s.out with cd := cd, rs := rs } }

section withCodec
variable (q : PortInput) (cd : Option (Except FormatError ChannelSet)) (rs : Option (Except ShapeError PulseWidths))

/-- Other port values are presented and other codec results shown, and the rest is the same. -/
theorem atPorts_eq_withCodec (p : PortInput) (s : State) :
    atPorts q s = (atPorts p s).withCodec q (atPorts q s).out.cd (atPorts q s).out.rs := rfl

/-- Ingesting a byte looks at no port. -/
theorem ingestByte_withCodec (cap : Nat) (d : Byte) (s : State) :
    ingestByte cap d (s.withCodec q cd rs) = (ingestByte cap d s).withCodec q cd rs := by
  simp only [ingestByte, State.withCodec]
  cases (framerStep s.backlog d).2 <;> rfl

/-- An event looks at no port but `ts_in`, and at no codec result: other ones in their place give the same next state with
those in their place. -/
theorem exec_withCodec {i : Instr} {s t : State} (h : exec i s = .next t) (hts : q.tsIn = s.port.tsIn)
    (hd : ∀ f, i ≠ .decode f) (hr : ∀ c, i ≠ .rescale c) :
    exec i (s.withCodec q cd rs) = .next (t.withCodec q cd rs) := by
  rcases exec_cases h with ⟨d, rfl, ha, rfl⟩ | ⟨rfl, ha, hne, rfl⟩ | ⟨c, rfl, ha, hc, rfl⟩ | ⟨rfl, rfl⟩ | ⟨hi, rfl⟩ |
    ⟨⟨op, rfl⟩, rfl⟩ | ⟨f, rfl, -⟩ | ⟨c, rfl, -⟩ | ⟨hi, rfl⟩
  · rw [exec_byte_active (by exact ha), ingestByte_withCodec]
  · exact exec_tickRaw_publishes ha hne
  · rw [← hts]
    exact exec_tickDec_publishes (s := s.withCodec q cd rs) ha hc
  · exact exec_start _
  · rcases hi with rfl | rfl <;> rfl
  · rfl
  · exact absurd rfl (hd f)
  · exact absurd rfl (hr c)
  · rcases hi with rfl | ⟨d, rfl, hoff⟩ | ⟨rfl, hq⟩ | ⟨rfl, hq⟩
    · rfl
    · exact exec_byte_inactive (s := s.withCodec q cd rs) hoff d
    · exact exec_tickRaw_quiet hq
    · exact exec_tickDec_quiet hq

end withCodec

/-- A step with the same event and timestamp on other codec inputs leaves the same state, but for the port values and the
codec results. -/
theorem advance_withCodec {p q : PortInput} {s t : State} (h : advance p s = .next t) (hi : q.instr = p.instr)
    (hts : q.tsIn = p.tsIn) :
    advance q s = .next (t.withCodec q (atPorts q s).out.cd (atPorts q s).out.rs) := by
  rw [advance_eq, hi, atPorts_eq_withCodec q p s]
  exact exec_withCodec _ _ _ (s := atPorts p s) h hts (instr_ne_decode p) (instr_ne_rescale p)

/-- Settles O21: a step shows the codec results of its port inputs, and its event does not look at them. -/
theorem codecPortsAreCombinational : Obligations.CodecPortsAreCombinational := by
  intro p q s s' hframe hch
  obtain ⟨t, ht⟩ := advance_total p s
  obtain ⟨u, hu⟩ := advance_total q s'
  obtain ⟨htcd, htrs⟩ := advance_codec_results ht
  obtain ⟨hucd, hurs⟩ := advance_codec_results hu
  refine ⟨⟨t, u, ht, hu, by rw [htcd, hucd, hframe], by rw [htrs, hurs, hch]⟩, fun v c => ?_⟩
  exact ⟨t, _, ht, advance_withCodec ht rfl rfl, rfl, rfl, rfl, rfl⟩

end Sys2Proof.Machine

/-! ## The framer: one byte, chunks, and the scan of a whole stream (41_framer.md) -/

namespace Sys2Proof.Machine

/-! ### Frames -/

/-- A Frame is its two markers around 23 bytes (R66). -/
theorem isFrame_iff (f : List Byte) : IsFrame f ↔ ∃ m, m.length = 23 ∧ f = 0x0F :: m ++ [0x00] := by
  constructor
  · rintro ⟨hlen, hstart, hend⟩
    obtain ⟨x, xs, rfl⟩ := List.exists_cons_of_length_eq_add_one hlen
    rcases List.eq_nil_or_concat' xs with rfl | ⟨m, y, rfl⟩
    · simp at hlen
    have hm : m.length = 23 := by simpa using hlen
    simp_all
  · rintro ⟨m, hm, rfl⟩
    simp [IsFrame, hm]

theorem isFrame_frameOf {p : List Byte} (flag : Byte) (h : p.length = 22) : IsFrame (frameOf p flag) :=
  (isFrame_iff _).mpr ⟨p ++ [flag], by simp [h], by simp [frameOf, Config.startMarker, Config.endMarker]⟩

/-- The payload of a frame written out is the payload written in it. -/
theorem payload_frameOf {p : List Byte} (flag : Byte) (h : p.length = 22) : payload (frameOf p flag) = p := by
  simp [payload_eq, frameOf, ← h]

/-- 25 bytes that begin with the start marker are a Frame when the last one is the end marker. -/
theorem isFrame_take_iff {rest : List Byte} (h : 24 ≤ rest.length) :
    IsFrame ((0x0F :: rest).take 25) ↔ rest.getD 23 0 = 0x00 := by
  have h23 : 23 < rest.length := by omega
  simp [IsFrame, h23, h]

/-! ### The framer step, one equation per decision (R111) -/

theorem framerStep_of_length_ne {b : List Byte} (d : Byte) (h : b.length ≠ 24) : framerStep b d = (b ++ [d], none) := by
  simp [framerStep, Config.packetLength, h]

theorem framerStep_of_length {b : List Byte} (d : Byte) (h : b.length = 24) :
    framerStep b d = framerDecide (b ++ [d]) := by
  simp [framerStep, Config.packetLength, h]

theorem firstIndex_marker_cons (rest : List Byte) : firstIndex (0x0F :: rest) Config.startMarker = some 0 := by
  simp [firstIndex, Config.startMarker]

/-- Without a start marker all is discarded (R114). -/
theorem framerDecide_of_no_marker {b : List Byte} (h : ∀ x ∈ b, x ≠ 0x0F) : framerDecide b = ([], none) := by
  simp [framerDecide, (firstIndex_eq_none_iff b Config.startMarker).mpr h]

/-- The bytes before the first start marker are dropped (R115). -/
theorem framerDecide_of_garbage {pre rest : List Byte} (hne : pre ≠ []) (h : ∀ x ∈ pre, x ≠ 0x0F) :
    framerDecide (pre ++ 0x0F :: rest) = (0x0F :: rest, none) := by
  obtain ⟨k, hk⟩ := Nat.exists_eq_succ_of_ne_zero (List.length_pos_iff.mpr hne).ne'
  have hfirst : firstIndex (pre ++ 0x0F :: rest) Config.startMarker = some (k + 1) :=
    (firstIndex_eq_some_iff _ _ _).mpr ⟨pre, rest, rfl, hk, h⟩
  simp only [framerDecide, hfirst, dropPrefix]
  rw [← Nat.succ_eq_add_one, ← hk, List.drop_left]

/-- A Frame is emitted and removed (R116). -/
theorem framerDecide_of_isFrame {f : List Byte} (h : IsFrame f) : framerDecide f = ([], some f) := by
  obtain ⟨m, hm, rfl⟩ := (isFrame_iff f).mp h
  have h24 : (0x0F :: m ++ [0x00]).getD 24 0 = Config.endMarker := by simp [hm, Config.endMarker]
  simp only [framerDecide, List.cons_append, firstIndex_marker_cons] at h24 ⊢
  rw [if_pos h24]
  simp [hm, Config.packetLength, dropPrefix, slice]

/-- A false start marker alone is dropped (R117). -/
theorem framerDecide_of_false_marker {rest : List Byte} (h : rest.getD 23 0 ≠ 0x00) :
    framerDecide (0x0F :: rest) = (rest, none) := by
  have h24 : (0x0F :: rest).getD 24 0 ≠ Config.endMarker := by simpa [Config.endMarker] using h
  simp only [framerDecide, firstIndex_marker_cons, if_neg h24]
  rfl

theorem framerStep_of_isFrame {b : List Byte} {d : Byte} (h : IsFrame (b ++ [d])) :
    framerStep b d = ([], some (b ++ [d])) := by
  have hlen : b.length = 24 := by simpa using h.1
  rw [framerStep_of_length d hlen, framerDecide_of_isFrame h]

theorem framerStep_of_false_marker {rest : List Byte} {d : Byte} (h : rest.length = 23) (hd : d ≠ 0x00) :
    framerStep (0x0F :: rest) d = (rest ++ [d], none) := by
  rw [framerStep_of_length d (by simp [h]), List.cons_append]
  exact framerDecide_of_false_marker (by simpa [h] using hd)

/-! ### One BYTE event -/

/-- Ingesting a byte leaves the ports and the mark of a refused run alone. -/
theorem sameSurroundings_ingestByte (cap : Nat) (d : Byte) (s : State) : SameSurroundings s (ingestByte cap d s) := by
  simp [SameSurroundings, SamePorts]

/-- A BYTE that completes no frame changes the Backlog and the batch, and shows no message. -/
theorem exec_byte_without_frame {d : Byte} {s : State} {b : List Byte} (ha : s.active = true)
    (h : framerStep s.backlog d = (b, none)) :
    ∃ t, exec (.byte d) s = .next t ∧ t.active = true ∧ t.backlog = b ∧
      t.batch = (if s.batch.length < 256 then s.batch ++ [d] else s.batch) ∧
      t.slot = s.slot ∧ t.out.NoMessage ∧ SameSurroundings s t :=
  ⟨_, exec_byte_active ha d, by simp [ha], by simp [h], by simp [appendCapped], by simp [h],
    by simp [Outputs.NoMessage, h], sameSurroundings_ingestByte _ _ _⟩

/-- Settles O9: below 25 bytes the framer step only appends. -/
theorem byteBelowPacketLengthOnlyAppends : Obligations.ByteBelowPacketLengthOnlyAppends :=
  fun d _ ha hlen => exec_byte_without_frame ha (framerStep_of_length_ne d hlen.ne)

/-- Settles O10: the framer decides on 25 bytes without a marker. -/
theorem byteWithoutMarkerDiscardsBacklog : Obligations.ByteWithoutMarkerDiscardsBacklog := by
  intro d s ha hlen hne
  exact exec_byte_without_frame ha ((framerStep_of_length d hlen).trans (framerDecide_of_no_marker hne))

/-- Settles O13: the framer decides on 25 bytes that begin with a false start marker. -/
theorem byteDropsFalseStartMarker : Obligations.ByteDropsFalseStartMarker := by
  intro d s rest ha hb hlen hd
  exact exec_byte_without_frame ha (hb ▸ framerStep_of_false_marker hlen hd)

/-- Settles O11: the framer decides on 25 bytes that begin with garbage, and what is left is shorter by the garbage. -/
theorem byteResyncsToFirstMarker : Obligations.ByteResyncsToFirstMarker := by
  intro d s garbage rest ha hlen hsplit hne hgarbage
  have hstep : framerStep s.backlog d = (0x0F :: rest, none) := by
    rw [framerStep_of_length d hlen, hsplit, framerDecide_of_garbage hne hgarbage]
  have hshort : (0x0F :: rest).length < 25 := by
    have hsum := congrArg List.length hsplit
    have hpos := List.length_pos_iff.mpr hne
    simp only [List.length_append, List.length_singleton, hlen] at hsum
    omega
  obtain ⟨t, ht, hactive, hbacklog, hrest⟩ := exec_byte_without_frame ha hstep
  exact ⟨t, ht, hactive, hbacklog, hbacklog ▸ hshort, hrest⟩

/-- Settles O12: the framer emits a Frame, whose payload goes to the slot. -/
theorem byteCompletesFrame : Obligations.ByteCompletesFrame := by
  intro d s ha hframe
  have hstep := framerStep_of_isFrame hframe
  exact ⟨_, exec_byte_active ha d, by simp [ha], by simp [hstep], by simp [hstep], by simp [hstep, payload_eq], by simp,
    by simp, by simp [appendCapped], sameSurroundings_ingestByte _ _ _⟩

/-- Settles O45: what the framer emits is a Frame, which DECODE accepts, and its payload goes to the slot. -/
theorem emittedFrameAlwaysDecodes : Obligations.EmittedFrameAlwaysDecodes := by
  intro d s t f h hf
  cases ha : s.active with
  | false =>
    rw [exec_byte_inactive ha] at h
    cases h
    simp at hf
  | true =>
    rw [exec_byte_active ha] at h
    cases h
    rw [ingestByte_out_fr] at hf
    have hshape := (frameShape_iff_isFrame f).mpr (isFrame_of_framerStep hf)
    exact ⟨_, decodeFrame_of_shape hshape, by simp [hf]⟩

/-! ### The scan of a stream (R123) -/

theorem isFrame_take_append {l : List Byte} (h : 25 ≤ l.length) (c : List Byte) :
    IsFrame ((l ++ c).take 25) ↔ IsFrame (l.take 25) := by
  rw [List.take_append_of_le_length h]

/-- The scan tests whether a Frame stands at its place. -/
theorem scan_test_iff {l : List Byte} (h : 25 ≤ l.length) :
    l.getD 0 0 = Config.startMarker ∧ l.getD 24 0 = Config.endMarker ↔ IsFrame (l.take 25) := by
  have h0 : 0 < l.length := by omega
  have h24 : 24 < l.length := by omega
  simp [IsFrame, h, h0, h24, Config.startMarker, Config.endMarker]

/-- The scan's own induction: it stops below 25 bytes, passes a Frame that stands at its place, and passes one byte where
none does. -/
theorem scan_induction {P : List Byte → Prop} (short : ∀ l, l.length < 25 → P l)
    (frame : ∀ f l, IsFrame f → P l → P (f ++ l))
    (skip : ∀ x l, 24 ≤ l.length → ¬ IsFrame ((x :: l).take 25) → P l → P (x :: l)) (l : List Byte) : P l := by
  induction hn : l.length using Nat.strong_induction_on generalizing l with
  | _ n ih =>
    rcases Nat.lt_or_ge l.length 25 with hl | hl
    · exact short l hl
    by_cases hf : IsFrame (l.take 25)
    · rw [← List.take_append_drop 25 l]
      exact frame _ _ hf (ih _ (by simp; omega) _ rfl)
    · cases l with
      | nil => simp at hl
      | cons x l => exact skip x l (Nat.le_of_succ_le_succ hl) hf (ih _ (by simp [← hn]) _ rfl)

theorem scanLoop_of_lt (n : Nat) {l : List Byte} (h : l.length < 25) : scanLoop n l = ([], l) := by
  cases n with
  | zero => rfl
  | succ n => exact if_pos h

theorem scanLoop_frame (n : Nat) {f : List Byte} (h : IsFrame f) (l : List Byte) :
    scanLoop (n + 1) (f ++ l) = (f :: (scanLoop n l).1, (scanLoop n l).2) := by
  have hlen : ¬ (f ++ l).length < Config.packetLength := by simp [h.1, Config.packetLength]
  have htest := (scan_test_iff (l := f ++ l) (by simp [h.1])).mpr (by simpa [← h.1] using h)
  rw [scanLoop, if_neg hlen, if_pos htest, dropPrefix, slice, List.drop_zero, Config.packetLength, ← h.1, List.drop_left,
    List.take_left]

theorem scanLoop_skip (n : Nat) {x : Byte} {l : List Byte} (hlen : 24 ≤ l.length)
    (h : ¬ IsFrame ((x :: l).take 25)) : scanLoop (n + 1) (x :: l) = scanLoop n l := by
  have hlen' : 25 ≤ (x :: l).length := Nat.succ_le_succ hlen
  have hgo : ¬ (x :: l).length < Config.packetLength := Nat.not_lt.mpr hlen'
  rw [scanLoop, if_neg hgo, if_neg (mt (scan_test_iff hlen').mp h)]
  rfl

/-- Turns beyond the number of bytes change nothing. -/
theorem scanLoop_eq_scanLoop {m n : Nat} {l : List Byte} (hn : l.length ≤ n) (hm : l.length ≤ m) :
    scanLoop n l = scanLoop m l := by
  induction l using scan_induction generalizing m n with
  | short l hl => rw [scanLoop_of_lt n hl, scanLoop_of_lt m hl]
  | frame f l hf ih =>
    rw [List.length_append, hf.1] at hm hn
    obtain ⟨m, rfl⟩ := Nat.exists_eq_add_one_of_ne_zero (n := m) (by omega)
    obtain ⟨n, rfl⟩ := Nat.exists_eq_add_one_of_ne_zero (n := n) (by omega)
    rw [scanLoop_frame n hf, scanLoop_frame m hf, ih (m := m) (by omega) (by omega)]
  | skip x l hlen hf ih =>
    rw [List.length_cons] at hm hn
    obtain ⟨m, rfl⟩ := Nat.exists_eq_add_one_of_ne_zero (n := m) (by omega)
    obtain ⟨n, rfl⟩ := Nat.exists_eq_add_one_of_ne_zero (n := n) (by omega)
    rw [scanLoop_skip n hlen hf, scanLoop_skip m hlen hf, ih (m := m) (by omega) (by omega)]

/-- As many turns as the stream has bytes suffice. -/
theorem scanLoop_of_length_le {n : Nat} {l : List Byte} (h : l.length ≤ n) : scanLoop n l = scanStream l :=
  scanLoop_eq_scanLoop h le_rfl

theorem scanStream_of_lt {l : List Byte} (h : l.length < 25) : scanStream l = ([], l) :=
  scanLoop_of_lt _ h

theorem scanStream_frame {f : List Byte} (h : IsFrame f) (l : List Byte) :
    scanStream (f ++ l) = (f :: (scanStream l).1, (scanStream l).2) := by
  have hlen : (f ++ l).length ≤ l.length + 24 + 1 := by simp [h.1]; omega
  rw [← scanLoop_of_length_le hlen, scanLoop_frame _ h, scanLoop_of_length_le (Nat.le_add_right _ _)]

theorem scanStream_skip {x : Byte} {l : List Byte} (hlen : 24 ≤ l.length) (h : ¬ IsFrame ((x :: l).take 25)) :
    scanStream (x :: l) = scanStream l :=
  scanLoop_skip _ hlen h

/-- The scan of a longer stream goes on from the bytes it had not passed. -/
theorem scanStream_append (l c : List Byte) :
    scanStream (l ++ c) =
      ((scanStream l).1 ++ (scanStream ((scanStream l).2 ++ c)).1, (scanStream ((scanStream l).2 ++ c)).2) := by
  induction l using scan_induction with
  | short l hl => rw [scanStream_of_lt hl]; rfl
  | frame f l hf ih => rw [List.append_assoc, scanStream_frame hf, scanStream_frame hf, ih]; rfl
  | skip x l hlen hf ih =>
    have hf' : ¬ IsFrame ((x :: (l ++ c)).take 25) := mt (isFrame_take_append (l := x :: l) (Nat.succ_le_succ hlen) c).mp hf
    rw [List.cons_append, scanStream_skip (hlen.trans (by simp)) hf', scanStream_skip hlen hf, ih]

/-! ### What of the scan can show: its frames, and the bytes not passed from the first marker on (R120, R123) -/

/-- The frames of a stream, and of the bytes the scan has not passed those from the first marker on. -/
def visibleScan (stream : List Byte) : List (List Byte) × List Byte :=
  ((scanStream stream).1, fromMarker (scanStream stream).2)

theorem visibleScan_of_lt {l : List Byte} (h : l.length < 25) : visibleScan l = ([], fromMarker l) := by
  rw [visibleScan, scanStream_of_lt h]

theorem visibleScan_frame {f : List Byte} (h : IsFrame f) (l : List Byte) :
    visibleScan (f ++ l) = (f :: (visibleScan l).1, (visibleScan l).2) := by
  rw [visibleScan, scanStream_frame h]
  rfl

theorem visibleScan_skip {x : Byte} {l : List Byte} (hlen : 24 ≤ l.length) (h : ¬ IsFrame ((x :: l).take 25)) :
    visibleScan (x :: l) = visibleScan l := by
  rw [visibleScan, scanStream_skip hlen h]
  rfl

/-- A byte before the first marker is passed, whether 25 bytes are there or not. -/
theorem visibleScan_cons_of_ne {x : Byte} (hx : x ≠ 0x0F) (l : List Byte) : visibleScan (x :: l) = visibleScan l := by
  rcases Nat.lt_or_ge (x :: l).length 25 with hl | hl
  · rw [visibleScan_of_lt hl, visibleScan_of_lt (Nat.lt_of_succ_lt hl), fromMarker_cons_of_ne hx]
  · exact visibleScan_skip (Nat.le_of_succ_le_succ hl) fun h => hx (by simpa using h.2.1)

/-- The scan does not see garbage before the first marker. -/
theorem visibleScan_fromMarker (l : List Byte) : visibleScan (fromMarker l) = visibleScan l := by
  induction l with
  | nil => rfl
  | cons x l ih =>
    by_cases hx : x = 0x0F
    · rw [hx, fromMarker_marker_cons]
    · rw [fromMarker_cons_of_ne hx, visibleScan_cons_of_ne hx, ih]

/-- Garbage before more bytes is not seen either. -/
theorem visibleScan_append_congr {b b' : List Byte} (h : fromMarker b = fromMarker b') (c : List Byte) :
    visibleScan (b ++ c) = visibleScan (b' ++ c) := by
  rw [← visibleScan_fromMarker, fromMarker_append, h, ← fromMarker_append, visibleScan_fromMarker]

/-- The scan goes on from any Backlog that shows what the scan had not passed. -/
theorem visibleScan_append {l b : List Byte} (h : fromMarker b = (visibleScan l).2) (c : List Byte) :
    visibleScan (l ++ c) = ((visibleScan l).1 ++ (visibleScan (b ++ c)).1, (visibleScan (b ++ c)).2) := by
  rw [visibleScan_append_congr h, visibleScan, scanStream_append]
  rfl

/-! ### `Feed` over chunks (R120) -/

/-- The bytes from the first marker on begin with it. -/
theorem fromMarker_eq_nil_or_cons (b : List Byte) : fromMarker b = [] ∨ ∃ rest, fromMarker b = 0x0F :: rest := by
  induction b with
  | nil => exact .inl rfl
  | cons x xs ih =>
    by_cases hx : x = 0x0F
    · exact .inr ⟨xs, hx ▸ fromMarker_marker_cons xs⟩
    · rwa [fromMarker_cons_of_ne hx]

theorem length_fromMarker_le (b : List Byte) : (fromMarker b).length ≤ b.length :=
  (List.dropWhile_suffix _).length_le

/-- `Feed`'s search for the marker drops the garbage. -/
theorem dropPrefix_firstIndex {b : List Byte} {k : Nat} (h : firstIndex b Config.startMarker = some k) :
    dropPrefix b k = fromMarker b := by
  obtain ⟨pre, rest, rfl, rfl, hne⟩ := (firstIndex_eq_some_iff _ _ _).mp h
  rw [fromMarker_append_of_ne hne]
  exact List.drop_left.trans (fromMarker_marker_cons rest).symm

/-- What a turn of `Feed` finds: too few bytes, too few from the first marker on, a Frame there, or a false start marker. -/
theorem feed_turn_cases (l : List Byte) :
    l.length < 25 ∨ (25 ≤ l.length ∧ (fromMarker l).length < 25) ∨
    (∃ f rest, fromMarker l = f ++ rest ∧ IsFrame f) ∨
    ∃ rest, fromMarker l = 0x0F :: rest ∧ 24 ≤ rest.length ∧ ¬ IsFrame ((0x0F :: rest).take 25) := by
  rcases Nat.lt_or_ge l.length 25 with hl | hl
  · exact .inl hl
  rcases Nat.lt_or_ge (fromMarker l).length 25 with hm | hm
  · exact .inr (.inl ⟨hl, hm⟩)
  rcases fromMarker_eq_nil_or_cons l with h | ⟨rest, h⟩
  · simp [h] at hm
  rw [h] at hm ⊢
  by_cases hf : IsFrame ((0x0F :: rest).take 25)
  · exact .inr (.inr (.inl ⟨_, _, (List.take_append_drop 25 _).symm, hf⟩))
  · exact .inr (.inr (.inr ⟨rest, rfl, Nat.le_of_succ_le_succ hm, hf⟩))

theorem feedLoop_of_lt (n : Nat) {l : List Byte} (h : l.length < 25) : feedLoop n l = (l, []) := by
  cases n with
  | zero => rfl
  | succ n => exact if_pos h

/-- A turn of `Feed` on 25 bytes or more in terms of the bytes from the first marker on. -/
theorem feedLoop_succ (n : Nat) {l : List Byte} (h : 25 ≤ l.length) :
    feedLoop (n + 1) l =
      if (fromMarker l).length < 25 then (fromMarker l, [])
      else if (fromMarker l).getD 24 0 = 0x00 then
        ((feedLoop n ((fromMarker l).drop 25)).1, (fromMarker l).take 25 :: (feedLoop n ((fromMarker l).drop 25)).2)
      else feedLoop n ((fromMarker l).drop 1) := by
  have hgo : ¬ l.length < Config.packetLength := Nat.not_lt.mpr h
  rw [feedLoop, if_neg hgo]
  cases hk : firstIndex l Config.startMarker with
  | none =>
    rw [fromMarker_eq_nil_iff.mpr ((firstIndex_eq_none_iff _ _).mp hk)]
    rfl
  | some k =>
    simp only [dropPrefix_firstIndex hk]
    rfl

theorem feedLoop_of_short (n : Nat) {l : List Byte} (h : 25 ≤ l.length) (hm : (fromMarker l).length < 25) :
    feedLoop (n + 1) l = (fromMarker l, []) := by
  rw [feedLoop_succ n h, if_pos hm]

theorem feedLoop_of_frame (n : Nat) {l f rest : List Byte} (hf : IsFrame f) (hm : fromMarker l = f ++ rest) :
    feedLoop (n + 1) l = ((feedLoop n rest).1, f :: (feedLoop n rest).2) := by
  have hlen : 25 ≤ (fromMarker l).length := by simp [hm, hf.1]
  have hend : (fromMarker l).getD 24 0 = 0x00 := by
    rw [hm, List.getD_append _ _ _ _ (by simp [hf.1]), List.getD_eq_getElem?_getD, hf.2.2, Option.getD_some]
  rw [feedLoop_succ n (hlen.trans (length_fromMarker_le l)), if_neg (Nat.not_lt.mpr hlen), if_pos hend, hm, ← hf.1,
    List.drop_left, List.take_left]

theorem feedLoop_of_false_marker (n : Nat) {l rest : List Byte} (hm : fromMarker l = 0x0F :: rest)
    (hlen : 24 ≤ rest.length) (hf : ¬ IsFrame ((0x0F :: rest).take 25)) :
    feedLoop (n + 1) l = feedLoop n rest := by
  have hend : (fromMarker l).getD 24 0 ≠ 0x00 := by
    rw [hm]
    exact mt (isFrame_take_iff hlen).mpr hf
  have hlen : 25 ≤ (fromMarker l).length := hm ▸ Nat.succ_le_succ hlen
  rw [feedLoop_succ n (hlen.trans (length_fromMarker_le l)), if_neg (Nat.not_lt.mpr hlen), if_neg hend, hm]
  rfl

/-- `Feed` leaves fewer than 25 bytes, and it returns and leaves what shows of the scan. -/
theorem feedLoop_eq_visibleScan {n : Nat} {l : List Byte} (h : l.length ≤ n) :
    (feedLoop n l).1.length < 25 ∧ ((feedLoop n l).2, fromMarker (feedLoop n l).1) = visibleScan l := by
  have short : ∀ b : List Byte, b.length < 25 →
      b.length < 25 ∧ (([] : List (List Byte)), fromMarker b) = visibleScan b :=
    fun b hb => ⟨hb, (visibleScan_of_lt hb).symm⟩
  induction n generalizing l with
  | zero => exact short l (by omega)
  | succ n ih =>
    have hle := (length_fromMarker_le l).trans h
    rw [← visibleScan_fromMarker l]
    rcases feed_turn_cases l with hl | ⟨hl, hm⟩ | ⟨f, rest, hm, hf⟩ | ⟨rest, hm, hlen, hf⟩
    · rw [feedLoop_of_lt _ hl, visibleScan_fromMarker]
      exact short l hl
    · rw [feedLoop_of_short n hl hm]
      exact short _ hm
    · rw [hm, List.length_append, hf.1] at hle
      obtain ⟨hshort, hscan⟩ := ih (l := rest) (by omega)
      rw [feedLoop_of_frame n hf hm, hm, visibleScan_frame hf, ← hscan]
      exact ⟨hshort, rfl⟩
    · rw [hm, List.length_cons] at hle
      rw [feedLoop_of_false_marker n hm hlen hf, hm, visibleScan_skip hlen hf]
      exact ih (by omega)

/-- However a stream is cut into chunks, `Feed` returns and leaves what shows of its scan. -/
theorem feedChunks_eq_visibleScan {b : List Byte} (hb : b.length < 25) (cs : List (List Byte)) :
    ((feedChunks b cs).2, fromMarker (feedChunks b cs).1) = visibleScan (b ++ cs.flatten) := by
  induction cs generalizing b with
  | nil => rw [List.flatten_nil, List.append_nil, visibleScan_of_lt hb]; rfl
  | cons c cs ih =>
    obtain ⟨hshort, hscan⟩ := feedLoop_eq_visibleScan (le_refl (b ++ c).length)
    rw [List.flatten_cons, ← List.append_assoc, visibleScan_append (congrArg Prod.snd hscan), ← hscan, ← ih hshort]
    rfl

/-- Settles O46: each decision of the framer step is a turn of `Feed`. -/
theorem framerStepIsFeedOfOneByte : Obligations.FramerStepIsFeedOfOneByte := by
  intro b d hb
  refine ⟨?_, Nat.lt_succ_of_le (length_framerStep_le hb)⟩
  have hlen : (b ++ [d]).length = b.length + 1 := List.length_append
  rw [feed, hlen]
  rcases framerStep_cases b d with ⟨hl, e⟩ | ⟨hl, hne, e⟩ | ⟨hl, pre, rest, hsplit, hpre, hne, e⟩ |
    ⟨hl, ⟨rest, rfl⟩, rfl, e⟩ | ⟨hl, rest, rfl, hd, e⟩ <;> rw [e]
  · exact feedLoop_of_lt _ (by omega)
  · have hm := fromMarker_eq_nil_iff.mpr hne
    rw [feedLoop_of_short _ (by omega) (by simp [hm]), hm]
    rfl
  · have hm : fromMarker (b ++ [d]) = 0x0F :: rest := by
      rw [hsplit, fromMarker_append_of_ne hne, fromMarker_marker_cons]
    have hlt : (fromMarker (b ++ [d])).length < 25 := by
      have hpos := List.length_pos_iff.mpr hpre
      rw [hm]
      rw [hsplit, List.length_append] at hlen
      omega
    rw [feedLoop_of_short _ (by omega) hlt, hm]
    rfl
  · have hf : IsFrame (0x0F :: rest ++ [0x00]) := (isFrame_iff _).mpr ⟨rest, by simpa using hl, rfl⟩
    have hm : fromMarker (0x0F :: rest ++ [0x00]) = 0x0F :: rest ++ [0x00] ++ [] := by
      rw [List.append_nil]
      exact fromMarker_marker_cons _
    rw [feedLoop_of_frame _ hf hm, feedLoop_of_lt _ (by decide)]
    rfl
  · have hrest : rest.length = 23 := by simpa using hl
    have hf : ¬ IsFrame ((0x0F :: (rest ++ [d])).take 25) :=
      mt (isFrame_take_iff (by simp [hrest])).mp (by simpa [hrest] using hd)
    have hm : fromMarker (0x0F :: rest ++ [d]) = 0x0F :: (rest ++ [d]) := fromMarker_marker_cons _
    rw [feedLoop_of_false_marker _ hm (by simp [hrest]) hf, feedLoop_of_lt _ (by simp [hrest])]
    rfl

/-! ### The framer over a stream, byte by byte -/

/-- The framer steps of a stream, one byte after the other: the last Backlog and the frames emitted, oldest first (R111). -/
def framerRun : List Byte → List Byte → List Byte × List (List Byte)
  | b, [] => (b, [])
  | b, d :: ds =>
    let r := framerStep b d
    let t := framerRun r.1 ds
    (t.1, r.2.toList ++ t.2)

theorem framerRun_cons {b b' : List Byte} {d : Byte} {f : Option (List Byte)} (h : framerStep b d = (b', f))
    (ds : List Byte) : framerRun b (d :: ds) = ((framerRun b' ds).1, f.toList ++ (framerRun b' ds).2) := by
  rw [framerRun, h]

theorem framerRun_append (b ds es : List Byte) :
    framerRun b (ds ++ es) =
      ((framerRun (framerRun b ds).1 es).1, (framerRun b ds).2 ++ (framerRun (framerRun b ds).1 es).2) := by
  induction ds generalizing b with
  | nil => rfl
  | cons d ds ih => simp only [List.cons_append, framerRun, ih, List.append_assoc]

/-- Bytes that leave the Backlog below 25 are only appended. -/
theorem framerRun_of_short {b ds : List Byte} (h : b.length + ds.length ≤ 24) : framerRun b ds = (b ++ ds, []) := by
  induction ds generalizing b with
  | nil => rw [List.append_nil]; rfl
  | cons d ds ih =>
    rw [List.length_cons] at h
    rw [framerRun_cons (framerStep_of_length_ne d (by omega)), ih (by simp; omega), List.append_assoc]
    rfl

/-- The first 24 bytes of a stream stand in the Backlog when the next one comes. -/
theorem framerRun_of_length {ds : List Byte} (h : ds.length = 24) (es : List Byte) :
    framerRun [] (ds ++ es) = framerRun ds es := by
  rw [framerRun_append, framerRun_of_short (b := []) (ds := ds) (by simp [h])]
  rfl

/-- The bytes of one Frame emit it and leave nothing. -/
theorem framerRun_of_isFrame {f : List Byte} (h : IsFrame f) : framerRun [] f = ([], [f]) := by
  obtain ⟨m, hm, rfl⟩ := (isFrame_iff f).mp h
  rw [framerRun_of_length (by simp [hm]), framerRun_cons (framerStep_of_isFrame h)]
  rfl

/-- A framer step leaves a suffix of the bytes it held. -/
theorem framerStep_suffix (b : List Byte) (d : Byte) : (framerStep b d).1 <:+ b ++ [d] := by
  rcases framerStep_cases b d with ⟨-, e⟩ | ⟨-, -, e⟩ | ⟨-, pre, rest, hsplit, -, -, e⟩ | ⟨-, -, -, e⟩ |
    ⟨-, rest, rfl, -, e⟩
  · rw [e]
  · rw [e]; exact List.nil_suffix
  · rw [e, hsplit]; exact List.suffix_append pre _
  · rw [e]; exact List.nil_suffix
  · rw [e]; exact List.suffix_cons _ _

/-- The Backlog is a suffix of the stream (10_state.md R22). -/
theorem framerRun_suffix (b ds : List Byte) : (framerRun b ds).1 <:+ b ++ ds := by
  induction ds generalizing b with
  | nil => rw [List.append_nil]; exact List.suffix_rfl
  | cons d ds ih =>
    obtain ⟨pre, hpre⟩ := framerStep_suffix b d
    rw [List.append_cons, ← hpre, List.append_assoc]
    exact (ih _).trans (List.suffix_append _ _)

/-- Byte by byte the framer is `Feed` over chunks of one byte (R112). -/
theorem framerRun_eq_feedChunks {b : List Byte} (hb : b.length ≤ 24) (ds : List Byte) :
    framerRun b ds = feedChunks b (ds.map fun d => [d]) := by
  induction ds generalizing b with
  | nil => rfl
  | cons d ds ih =>
    rw [framerRun, List.map_cons, feedChunks, (framerStepIsFeedOfOneByte b d hb).1, ih (length_framerStep_le hb)]

/-- Byte by byte the framer emits and leaves what shows of the scan of its stream. -/
theorem framerRun_eq_visibleScan {b : List Byte} (hb : b.length ≤ 24) (ds : List Byte) :
    ((framerRun b ds).2, fromMarker (framerRun b ds).1) = visibleScan (b ++ ds) := by
  rw [framerRun_eq_feedChunks hb, feedChunks_eq_visibleScan (Nat.lt_succ_of_le hb), ← List.flatMap_def,
    List.flatMap_singleton']

/-! ### Runs of a session -/

@[simp] theorem framesOf_cons (o : Outputs) (os : List Outputs) : framesOf (o :: os) = o.fr.toList ++ framesOf os := by
  cases h : o.fr <;> simp [framesOf, h]

theorem bytesOf_cons (i : Instr) (is : List Instr) : bytesOf (i :: is) = bytesOf [i] ++ bytesOf is := by
  cases i <;> rfl

@[simp] theorem bytesOf_map_byte (ds : List Byte) : bytesOf (ds.map Instr.byte) = ds := by
  simp [bytesOf, List.filterMap_map]

/-- BYTE events keep the session. -/
theorem keepsSession_of_bytes {ps : List PortInput} {ds : List Byte} (h : ps.map PortInput.instr = ds.map Instr.byte) :
    ∀ p ∈ ps, keepsSession p.instr = true ∧ p.instr ≠ .tickDec := by
  intro p hp
  have hmem : p.instr ∈ ds.map Instr.byte := h ▸ List.mem_map_of_mem hp
  obtain ⟨d, -, hd⟩ := List.mem_map.mp hmem
  rw [← hd]
  exact ⟨rfl, by simp⟩

/-- A step that keeps the session runs the framer over the byte of its event, if it has one. -/
theorem advance_framerRun {p : PortInput} {s t : State} (ha : s.active = true) (hk : keepsSession p.instr = true)
    (h : advance p s = .next t) :
    t.active = true ∧ (t.backlog, t.out.fr.toList) = framerRun s.backlog (bytesOf [p.instr]) := by
  rw [advance_eq] at h
  have other : ∀ i, p.instr = i → bytesOf [i] = [] → t.backlog = s.backlog → t.out.fr = none →
      (t.backlog, t.out.fr.toList) = framerRun s.backlog (bytesOf [p.instr]) := by
    rintro _ rfl hi hbacklog hfr
    rw [hi, hbacklog, hfr]
    rfl
  rcases exec_cases h with ⟨d, hi, -, rfl⟩ | ⟨hi, -, -, rfl⟩ | ⟨c, hi, -, -, rfl⟩ | ⟨hi, rfl⟩ | ⟨hi, -⟩ |
    ⟨⟨op, hi⟩, -⟩ | ⟨f, hi, -⟩ | ⟨c, hi, -⟩ | ⟨hi, rfl⟩
  · rw [hi]
    simp [ha, bytesOf, framerRun]
  · exact ⟨ha, other _ hi rfl rfl rfl⟩
  · exact ⟨ha, other _ hi rfl rfl rfl⟩
  · exact ⟨rfl, other _ hi rfl rfl rfl⟩
  · rcases hi with hi | hi <;> simp [hi, keepsSession] at hk
  · simp [hi, keepsSession] at hk
  · exact absurd hi (instr_ne_decode p f)
  · exact absurd hi (instr_ne_rescale p c)
  · rcases hi with hi | ⟨d, -, hoff⟩ | ⟨hi, -⟩ | ⟨hi, -⟩
    · exact ⟨ha, other _ hi rfl rfl rfl⟩
    · exact absurd (ha.symm.trans hoff) (by decide)
    · exact ⟨ha, other _ hi rfl rfl rfl⟩
    · exact ⟨ha, other _ hi rfl rfl rfl⟩

/-- Over the events of a session the frames and the Backlog are those of the framer over its bytes. -/
theorem runInputs_framerRun {ps : List PortInput} {s t : State} (ha : s.active = true)
    (hk : ∀ p ∈ ps, keepsSession p.instr = true) (h : runInputs ps s = .next t) :
    (t.backlog, framesOf (trace ps s)) = framerRun s.backlog (bytesOf (ps.map PortInput.instr)) := by
  induction ps generalizing s with
  | nil => cases h; rfl
  | cons p ps ih =>
    obtain ⟨hp, hps⟩ := List.forall_mem_cons.mp hk
    obtain ⟨u, hu⟩ := advance_total p s
    rw [runInputs_cons hu] at h
    obtain ⟨hua, hstep⟩ := advance_framerRun ha hp hu
    rw [List.map_cons, bytesOf_cons, framerRun_append, ← hstep, ← ih hua hps h, trace_cons hu, framesOf_cons]

/-- Settles O47: both ways the frames and what the Backlog shows are those of the scan of the old Backlog and the bytes. -/
theorem framesIndependentOfChunking : Obligations.FramesIndependentOfChunking := by
  intro s chunks ps ha hb hps
  obtain ⟨t, ht⟩ := runInputs_total ps s
  have hrun := runInputs_framerRun ha (fun p hp => (keepsSession_of_bytes hps p hp).1) ht
  rw [hps, bytesOf_map_byte] at hrun
  have hsame : (framesOf (trace ps s), fromMarker t.backlog) =
      ((feedChunks s.backlog chunks).2, fromMarker (feedChunks s.backlog chunks).1) := by
    rw [feedChunks_eq_visibleScan (Nat.lt_succ_of_le hb), ← framerRun_eq_visibleScan hb, ← hrun]
  exact ⟨t, ht, congrArg Prod.fst hsame, congrArg Prod.snd hsame⟩

/-- Settles O48: the session runs the framer over its bytes, which emits and leaves what shows of their scan. -/
theorem sessionFramesAreScanOfStream : Obligations.SessionFramesAreScanOfStream := by
  intro s ps ha hb hk
  obtain ⟨t, ht⟩ := runInputs_total ps s
  have hrun := runInputs_framerRun ha hk ht
  rw [hb] at hrun
  have hscan := framerRun_eq_visibleScan (b := []) (Nat.zero_le _) (bytesOf (ps.map PortInput.instr))
  have hsuffix := framerRun_suffix [] (bytesOf (ps.map PortInput.instr))
  rw [← hrun] at hscan hsuffix
  exact ⟨t, ht, congrArg Prod.fst hscan, hsuffix, congrArg Prod.snd hscan⟩

/-! ### Streams of one frame (95_test_vectors.md W2, W3) -/

/-- A step of a session, but TICK_DEC, leaves in the slot the ChannelSet of its frame, or what was there. -/
theorem advance_slot {p : PortInput} {s t : State} (hk : keepsSession p.instr = true) (hdec : p.instr ≠ .tickDec)
    (h : advance p s = .next t) : t.slot = (t.out.fr.map fun f => unpack (payload f)).or s.slot := by
  rw [advance_eq] at h
  rcases exec_cases h with ⟨d, -, -, rfl⟩ | ⟨-, -, -, rfl⟩ | ⟨c, hi, -⟩ | ⟨-, rfl⟩ | ⟨hi, -⟩ |
    ⟨⟨op, hi⟩, -⟩ | ⟨f, hi, -⟩ | ⟨c, hi, -⟩ | ⟨-, rfl⟩
  · cases hf : (framerStep s.backlog d).2 <;> simp [hf]
  · rfl
  · exact absurd hi hdec
  · rfl
  · rcases hi with hi | hi <;> simp [hi, keepsSession] at hk
  · simp [hi, keepsSession] at hk
  · exact absurd hi (instr_ne_decode p f)
  · exact absurd hi (instr_ne_rescale p c)
  · rfl

/-- Without a TICK_DEC a session leaves in the slot the ChannelSet of its last frame, or what was there. -/
theorem runInputs_slot {ps : List PortInput} {s t : State}
    (hk : ∀ p ∈ ps, keepsSession p.instr = true ∧ p.instr ≠ .tickDec) (h : runInputs ps s = .next t) :
    t.slot = ((framesOf (trace ps s)).getLast?.map fun f => unpack (payload f)).or s.slot := by
  induction ps generalizing s with
  | nil => cases h; rfl
  | cons p ps ih =>
    obtain ⟨⟨hp, hdec⟩, hps⟩ := List.forall_mem_cons.mp hk
    obtain ⟨u, hu⟩ := advance_total p s
    rw [runInputs_cons hu] at h
    rw [ih hps h, advance_slot hp hdec hu, trace_cons hu, framesOf_cons, List.getLast?_append, Option.map_or,
      Option.or_assoc]
    cases u.out.fr <;> rfl

/-- The run over the BYTE events of a stream, from an empty Backlog. -/
theorem runInputs_bytes {s : State} {ps : List PortInput} {ds b : List Byte} {fs : List (List Byte)}
    (ha : s.active = true) (hb : s.backlog = []) (hps : ps.map PortInput.instr = ds.map Instr.byte)
    (hrun : framerRun [] ds = (b, fs)) :
    ∃ t, runInputs ps s = .next t ∧ framesOf (trace ps s) = fs ∧ t.backlog = b ∧
      t.slot = (fs.getLast?.map fun f => unpack (payload f)).or s.slot := by
  obtain ⟨t, ht⟩ := runInputs_total ps s
  have hk := keepsSession_of_bytes hps
  have hpair := runInputs_framerRun ha (fun p hp => (hk p hp).1) ht
  rw [hps, bytesOf_map_byte, hb, hrun] at hpair
  obtain ⟨rfl, rfl⟩ := Prod.mk.inj hpair
  exact ⟨t, ht, rfl, rfl, runInputs_slot hk ht⟩

/-- A stream that shows one frame and leaves nothing leaves its payload's ChannelSet in the slot. -/
theorem runInputs_single_frame {s : State} {ps : List PortInput} {ds p : List Byte} {flag : Byte} (ha : s.active = true)
    (hb : s.backlog = []) (hp : p.length = 22) (hps : ps.map PortInput.instr = ds.map Instr.byte)
    (hrun : framerRun [] ds = ([], [frameOf p flag])) :
    ∃ t, runInputs ps s = .next t ∧ framesOf (trace ps s) = [frameOf p flag] ∧ t.backlog = [] ∧
      t.slot = some (unpack p) := by
  obtain ⟨t, ht, hframes, hbacklog, hslot⟩ := runInputs_bytes ha hb hps hrun
  exact ⟨t, ht, hframes, hbacklog, by simpa [payload_frameOf flag hp] using hslot⟩

/-- Settles O50: the framer emits the frame with its last byte. -/
theorem oneFrameStreamYieldsThatFrame : Obligations.OneFrameStreamYieldsThatFrame := by
  intro s p flag ps ha hb hp hps
  exact runInputs_single_frame ha hb hp hps (framerRun_of_isFrame (isFrame_frameOf flag hp))

/-- Settles O51: the flag byte is the 25th and drops the spurious marker, and the end marker then completes the frame. -/
theorem spuriousMarkerIsRecovered : Obligations.SpuriousMarkerIsRecovered := by
  intro s p flag ps ha hb hp hflag hps
  have hdrop : framerStep (0x0F :: 0x0F :: p) flag = (0x0F :: p ++ [flag], none) :=
    framerStep_of_false_marker (by simp [hp]) hflag
  have hframe : 0x0F :: p ++ [flag] ++ [0x00] = frameOf p flag := List.append_assoc _ _ _
  have hemit := framerStep_of_isFrame (hframe ▸ isFrame_frameOf flag hp)
  have hrun : framerRun [] (0x0F :: 0x0F :: p ++ [flag, 0x00]) = ([], [frameOf p flag]) := by
    rw [framerRun_of_length (by simp [hp]), framerRun_cons hdrop, framerRun_cons hemit, hframe]
    rfl
  exact runInputs_single_frame ha hb hp hps hrun

/-- Settles O52: the flag byte is the 25th and completes the spurious frame, and the end marker stays. -/
theorem falseLockLosesRealFrame : Obligations.FalseLockLosesRealFrame := by
  intro s p ps ha hb hp hps
  have hframe : IsFrame (0x0F :: 0x0F :: p ++ [0x00]) := (isFrame_iff _).mpr ⟨0x0F :: p, by simp [hp], rfl⟩
  have hrun : framerRun [] (0x0F :: 0x0F :: p ++ [0x00, 0x00]) = ([0x00], [0x0F :: 0x0F :: p ++ [0x00]]) := by
    rw [framerRun_of_length (by simp [hp]), framerRun_cons (framerStep_of_isFrame hframe)]
    rfl
  obtain ⟨t, ht, hframes, hbacklog, -⟩ := runInputs_bytes ha hb hps hrun
  exact ⟨t, ht, hframes, hbacklog⟩

end Sys2Proof.Machine

/-! ## The IngestionPipeline: its events, and the raw and decoded feeds over a session (42_pipeline.md) -/

namespace Sys2Proof.Machine

/-! ### One event (R131 to R138) -/

/-- An event that writes the block and the message ports alone leaves the surroundings as they are. -/
theorem sameSurroundings_emit (s : State) (active : Bool) (backlog batch : List Byte) (slot : Option ChannelSet)
    (fr raw : Option (List Byte)) (dec : Option DecMessage) :
    SameSurroundings s (({ s with active := active, backlog := backlog, batch := batch, slot := slot } : State).emit
      fr raw dec) :=
  ⟨⟨rfl, rfl, rfl, rfl, rfl⟩, rfl⟩

theorem sameSurroundings_quiet (s : State) : SameSurroundings s s.quiet := sameSurroundings_emit s _ _ _ _ _ _ _

theorem noMessage_quiet (s : State) : s.quiet.out.NoMessage := ⟨rfl, rfl, rfl⟩

/-- Settles O4: under this hardware's policy START writes the flag alone. -/
theorem startSetsFlagAndKeepsBuffers : Obligations.StartSetsFlagAndKeepsBuffers :=
  fun s => ⟨_, exec_start s, rfl, rfl, rfl, rfl, noMessage_quiet _, sameSurroundings_emit s _ _ _ _ _ _ _⟩

/-- Without a session the invariant leaves STOP nothing to clear (10_state.md R27). -/
theorem block_clearBlock_of_inactive {s : State} (hs : s.Inv) (ha : s.active = false) : s.clearBlock.block = s.block := by
  obtain ⟨-, -, -, hoff⟩ := hs
  obtain ⟨hbacklog, hbatch, hslot⟩ := hoff ha
  simp [State.block, ha, hbacklog, hbatch, hslot]

/-- Settles O5: STOP clears the block, which without a session is clear. -/
theorem stopClearsBlockAndIsIdempotent : Obligations.StopClearsBlockAndIsIdempotent :=
  fun s => ⟨_, exec_stop s, rfl, rfl, rfl, rfl, noMessage_quiet _, sameSurroundings_emit s _ _ _ _ _ _ _,
    block_clearBlock_of_inactive⟩

/-- Settles O8: the batch takes the byte below its capacity and is left alone at it. -/
theorem byteAppendsToBatchUnlessFull : Obligations.ByteAppendsToBatchUnlessFull := by
  intro d s ha
  refine ⟨_, exec_byte_active ha d, by simp [ha], fun hlt => ?_, fun hle => ?_, by simp, by simp,
    sameSurroundings_ingestByte _ _ _⟩
  · rw [ingestByte_batch, appendCapped_of_lt d hlt]
  · rw [ingestByte_batch, appendCapped_of_le d hle]

/-- Settles O14: without a session BYTE has the effect of NOP. -/
theorem byteIgnoredWithoutSession : Obligations.ByteIgnoredWithoutSession :=
  fun d s ha => ⟨s.quiet, exec_byte_inactive ha d, rfl, noMessage_quiet s, sameSurroundings_quiet s⟩

/-- Settles O15: the batch is published where there is one, and the tick is quiet otherwise. -/
theorem tickRawPublishesAndClearsBatch : Obligations.TickRawPublishesAndClearsBatch := by
  intro s
  by_cases hq : s.active = false ∨ s.batch = []
  · exact ⟨s.quiet, exec_tickRaw_quiet hq, rfl, rfl, rfl, fun ⟨ha, hne⟩ => by simp [ha, hne] at hq, fun _ => ⟨rfl, rfl⟩,
      by simp, rfl, rfl, sameSurroundings_quiet s⟩
  · obtain ⟨ha, hne⟩ : s.active = true ∧ s.batch ≠ [] := by simpa using hq
    refine ⟨_, exec_tickRaw_publishes ha hne, rfl, rfl, rfl, fun _ => ⟨rfl, rfl⟩, fun h => absurd h hq, fun hlen => ?_,
      rfl, rfl, sameSurroundings_emit s _ _ _ _ _ _ _⟩
    rintro _ ⟨⟩
    exact ⟨List.length_pos_iff.mpr hne, hlen⟩

/-- Settles O16: the slot is published where it is full, and the tick is quiet otherwise. -/
theorem tickDecPublishesAndClearsSlot : Obligations.TickDecPublishesAndClearsSlot := by
  intro s
  by_cases hq : s.active = false ∨ s.slot = none
  · exact ⟨s.quiet, exec_tickDec_quiet hq, rfl, rfl, rfl, fun c ha hc => by simp [ha, hc] at hq, fun _ => ⟨rfl, rfl⟩,
      rfl, rfl, sameSurroundings_quiet s⟩
  · obtain ⟨ha, hne⟩ : s.active = true ∧ s.slot ≠ none := by simpa using hq
    obtain ⟨c, hc⟩ := Option.ne_none_iff_exists'.mp hne
    refine ⟨_, exec_tickDec_publishes ha hc, rfl, rfl, rfl, fun c' _ hc' => ?_, fun h => absurd h hq, rfl, rfl,
      sameSurroundings_emit s _ _ _ _ _ _ _⟩
    cases hc.symm.trans hc'
    exact ⟨rfl, rfl⟩

/-- Only a reserved event touches the mark of a refused run. -/
theorem exec_keeps_runRefused {i : Instr} {s t : State} (h : exec i s = .next t) (hi : ∀ op, i ≠ .reserved op) :
    t.runRefused = s.runRefused := by
  rcases exec_cases h with ⟨d, -, -, rfl⟩ | ⟨-, -, -, rfl⟩ | ⟨c, -, -, -, rfl⟩ | ⟨-, rfl⟩ | ⟨-, rfl⟩ | ⟨⟨op, hop⟩, -⟩ |
    ⟨f, -, rfl⟩ | ⟨c, -, rfl⟩ | ⟨-, rfl⟩
  pick_goal 6; exact absurd hop (hi op)
  all_goals simp

/-- Settles O17: the mark is all that a reserved event writes. -/
theorem reservedChangesNothingAndMarksRun : Obligations.ReservedChangesNothingAndMarksRun :=
  fun s => ⟨fun op => ⟨_, exec_reserved op s, rfl, noMessage_quiet _, rfl, rfl, rfl, rfl, rfl, rfl⟩,
    fun _ _ => exec_keeps_runRefused⟩

/-- Settles O36: the step takes the listed port values, shows both codec results and runs the event. -/
theorem stepRunsPresentedOperation : Obligations.StepRunsPresentedOperation := by
  intro p rest s h
  refine ⟨?_, fun hrst => if_pos hrst, fun hrst hidle => instr_eq_nop hrst (.inl hidle), fun hrst hvalid => ?_⟩
  · rw [step_eq_advance, State.nextInput_cons h, advance_eq, State.dropInput, h]
    rfl
  · rw [PortInput.instr, hrst, hvalid]
    rfl

/-! ### Who shows a message (R140) -/

/-- Settles O44: of what an event can do, only the three that publish or emit show a message. -/
theorem onlyOwnEventEmitsMessage : Obligations.OnlyOwnEventEmitsMessage := by
  intro p s t h
  rw [advance_eq] at h
  rcases exec_cases h with ⟨d, hi, ha, rfl⟩ | ⟨hi, ha, -, rfl⟩ | ⟨c, hi, ha, hc, rfl⟩ | ⟨-, rfl⟩ | ⟨-, rfl⟩ | ⟨-, rfl⟩ |
    ⟨f, hi, -⟩ | ⟨c, hi, -⟩ | ⟨-, rfl⟩
  · refine ⟨by simp, by simp, fun f hf => ⟨ha, d, hi, ?_⟩⟩
    exact (framerStep_emits ((ingestByte_out_fr _ _ _).symm.trans hf)).1
  · refine ⟨fun b hb => ⟨hi, ha, ?_⟩, by simp, by simp⟩
    cases hb
    rfl
  · exact ⟨by simp, fun m _ => ⟨hi, ha, Option.ne_none_iff_exists'.mpr ⟨c, hc⟩⟩, by simp⟩
  pick_goal 4; exact absurd hi (instr_ne_decode p f)
  pick_goal 4; exact absurd hi (instr_ne_rescale p c)
  all_goals simp

/-- A step that shows a raw message has TICK_RAW for its event. -/
theorem tickRaw_of_advance {p : PortInput} {s t : State} (h : advance p s = .next t) (hraw : t.out.raw.isSome = true) :
    p.instr = .tickRaw := by
  obtain ⟨b, hb⟩ := Option.isSome_iff_exists.mp hraw
  obtain ⟨hown, -, -⟩ := onlyOwnEventEmitsMessage p s t h
  exact (hown b hb).1

/-- A step that shows a decoded message has TICK_DEC for its event. -/
theorem tickDec_of_advance {p : PortInput} {s t : State} (h : advance p s = .next t) (hdec : t.out.dec.isSome = true) :
    p.instr = .tickDec := by
  obtain ⟨m, hm⟩ := Option.isSome_iff_exists.mp hdec
  obtain ⟨-, hown, -⟩ := onlyOwnEventEmitsMessage p s t h
  exact (hown m hm).1

/-! ### Ticks and messages in time (R140, 70_reset_and_hazards.md R186) -/

/-- Spaced times are a chain, so any two of them in order are as far apart. -/
theorem spacedBy_iff_pairwise (period : Nat) (l : List Nat) :
    spacedBy period l = true ↔ l.Pairwise fun a b => a + period ≤ b := by
  have trans : IsTrans Nat fun a b => a + period ≤ b := ⟨fun a b c hab hbc => by omega⟩
  rw [← List.isChain_iff_pairwise]
  induction l with
  | nil => simp [spacedBy]
  | cons a l ih =>
    cases l with
    | nil => simp [spacedBy]
    | cons b l => simp [spacedBy, ih]

/-- Of spaced times any selection is spaced. -/
theorem spacedBy_of_sublist {period : Nat} {l l' : List Nat} (hsub : l.Sublist l') (h : spacedBy period l' = true) :
    spacedBy period l = true :=
  (spacedBy_iff_pairwise period l).mpr (((spacedBy_iff_pairwise period l').mp h).sublist hsub)

/-- Where only the chosen events show a message, the times of messages are among the times of these events. -/
theorem messageTimes_sublist {shows : Outputs → Bool} {chosen : Instr → Bool}
    (hown : ∀ {p s t}, advance p s = .next t → shows t.out = true → chosen p.instr = true) (tr : TimedInputs) (s : State) :
    (messageTimes shows tr s).Sublist (timesOf chosen tr) := by
  induction tr generalizing s with
  | nil => exact List.Sublist.slnil
  | cons x tr ih =>
    obtain ⟨t, ht⟩ := advance_total x.2 s
    have hrest := ih t
    simp only [messageTimes, timesOf, List.map_cons, trace_cons ht, List.zip_cons_cons, List.filter_cons] at hrest ⊢
    by_cases hshow : shows t.out = true
    · simpa [hshow, hown ht hshow] using hrest
    · rw [if_neg hshow]
      split
      · exact hrest.cons _
      · exact hrest

/-- Settles O57: the times of messages are among those of their ticks. -/
theorem publishRateFollowsTickDuty : Obligations.PublishRateFollowsTickDuty := by
  refine fun period tr s => ⟨spacedBy_of_sublist (messageTimes_sublist (fun h hraw => ?_) tr s),
    spacedBy_of_sublist (messageTimes_sublist (fun h hdec => ?_) tr s)⟩
  · exact beq_iff_eq.mpr (tickRaw_of_advance h hraw)
  · exact beq_iff_eq.mpr (tickDec_of_advance h hdec)

/-! ### The decoded feed (R139) -/

/-- The events of a session keep it. -/
theorem runInputs_active {ps : List PortInput} {s t : State} (ha : s.active = true)
    (hk : ∀ p ∈ ps, keepsSession p.instr = true) (h : runInputs ps s = .next t) : t.active = true := by
  induction ps generalizing s with
  | nil => cases h; exact ha
  | cons p ps ih =>
    obtain ⟨hp, hps⟩ := List.forall_mem_cons.mp hk
    obtain ⟨u, hu⟩ := advance_total p s
    rw [runInputs_cons hu] at h
    exact ih (advance_framerRun ha hp hu).1 hps h

/-- Without a TICK_DEC no decoded message appears. -/
theorem decsOf_trace_eq_nil {ps : List PortInput} (hk : ∀ p ∈ ps, p.instr ≠ .tickDec) (s : State) :
    decsOf (trace ps s) = [] := by
  induction ps generalizing s with
  | nil => rfl
  | cons p ps ih =>
    obtain ⟨hp, hps⟩ := List.forall_mem_cons.mp hk
    obtain ⟨u, hu⟩ := advance_total p s
    have hdec : u.out.dec = none := Option.not_isSome_iff_eq_none.mp (mt (tickDec_of_advance hu) hp)
    rw [trace_cons hu, decsOf, List.filterMap_cons_none hdec]
    exact ih hps u

/-- A TICK_DEC of a session publishes what the slot holds and leaves it empty. -/
theorem advance_tickDec {q : PortInput} {t : State} (ha : t.active = true) (hq : q.instr = .tickDec) :
    ∃ u, advance q t = .next u ∧ u.slot = none ∧ u.out.dec = t.slot.map fun c => decMessage c q.tsIn := by
  rw [advance_eq, hq]
  cases hslot : t.slot with
  | none => exact ⟨_, exec_tickDec_quiet (.inr hslot), hslot, rfl⟩
  | some c => exact ⟨_, exec_tickDec_publishes (s := atPorts q t) ha hslot, rfl, rfl⟩

/-- Settles O53: at the second TICK_DEC the slot holds the ChannelSet of the last frame, or what it held. -/
theorem latestFrameWins : Obligations.LatestFrameWins := by
  intro s ps q ha hk hq
  obtain ⟨t, ht⟩ := runInputs_total ps s
  have hslot := runInputs_slot hk ht
  obtain ⟨u, hu, hempty, hdec⟩ := advance_tickDec (runInputs_active ha (fun p hp => (hk p hp).1) ht) hq
  refine ⟨t, u, ht, decsOf_trace_eq_nil (fun p hp => (hk p hp).2) s, hu, hempty, fun f hf => ?_, fun hf => ?_⟩
  · rw [hdec, hslot, hf, ← payload_eq]
    rfl
  · rw [hdec, hslot, hf]
    rfl

/-! ### The raw feed (R141) -/

/-- What an interval has collected when it is within the capacity is itself within it. -/
theorem le_of_withinCap {cap n : Nat} {is : List Instr} (h : withinCap cap n is = true) : n ≤ cap := by
  induction is generalizing n with
  | nil => simpa [withinCap] using h
  | cons i is ih =>
    cases i with
    | byte d => exact Nat.le_of_succ_le (ih h)
    | tickRaw => exact of_decide_eq_true (Bool.and_eq_true_iff.mp h).1
    | _ => exact ih h

/-- Where no interval collects more than the capacity, the batch takes every byte. -/
theorem acceptedBytes_of_withinCap {cap n : Nat} {is : List Instr} (h : withinCap cap n is = true) :
    acceptedBytes cap n is = bytesOf is := by
  induction is generalizing n with
  | nil => rfl
  | cons i is ih =>
    cases i with
    | byte d =>
      have hlt : n < cap := le_of_withinCap (is := is) h
      rw [acceptedBytes, if_pos hlt, ih h]
      rfl
    | tickRaw => exact ih (Bool.and_eq_true_iff.mp h).2
    | _ => exact ih h

/-- A step of a session keeps what was published in it, is held and will be accepted, in this order. -/
theorem advance_rawFeed {p : PortInput} {s t : State} (ha : s.active = true) (hk : keepsSession p.instr = true)
    (h : advance p s = .next t) (is : List Instr) :
    t.out.raw.getD [] ++ (t.batch ++ acceptedBytes 256 t.batch.length is) =
      s.batch ++ acceptedBytes 256 s.batch.length (p.instr :: is) := by
  rw [advance_eq] at h
  rcases exec_cases h with ⟨d, hi, -, rfl⟩ | ⟨hi, -, -, rfl⟩ | ⟨c, hi, -, -, rfl⟩ | ⟨hi, rfl⟩ | ⟨hi, -⟩ |
    ⟨⟨op, hi⟩, -⟩ | ⟨f, hi, -⟩ | ⟨c, hi, -⟩ | ⟨hi, rfl⟩
  · rw [hi, acceptedBytes, ingestByte_batch, ingestByte_out_raw, atPorts_batch]
    by_cases hlt : s.batch.length < 256
    · simp [hlt, appendCapped_of_lt d hlt]
    · simp [hlt, appendCapped_of_le d (Nat.not_lt.mp hlt)]
  · rw [hi]; rfl
  · rw [hi]; rfl
  · rw [hi]; rfl
  · rcases hi with hi | hi <;> simp [hi, keepsSession] at hk
  · simp [hi, keepsSession] at hk
  · exact absurd hi (instr_ne_decode p f)
  · exact absurd hi (instr_ne_rescale p c)
  · rcases hi with hi | ⟨d, -, hoff⟩ | ⟨hi, hq⟩ | ⟨hi, -⟩
    · rw [hi]; rfl
    · exact absurd (ha.symm.trans hoff) (by decide)
    · have hempty : s.batch = [] := hq.resolve_left (by simp [ha])
      rw [hi]
      simp [hempty, acceptedBytes]
    · rw [hi]; rfl

theorem rawsOf_flatten_cons (o : Outputs) (os : List Outputs) :
    (rawsOf (o :: os)).flatten = o.raw.getD [] ++ (rawsOf os).flatten := by
  cases h : o.raw <;> simp [rawsOf, h]

/-- The raw messages of a session, then its batch, are the batch at its start and the bytes accepted since. -/
theorem runInputs_rawFeed {ps : List PortInput} {s t : State} (ha : s.active = true)
    (hk : ∀ p ∈ ps, keepsSession p.instr = true) (h : runInputs ps s = .next t) :
    (rawsOf (trace ps s)).flatten ++ t.batch =
      s.batch ++ acceptedBytes 256 s.batch.length (ps.map PortInput.instr) := by
  induction ps generalizing s with
  | nil => cases h; exact (List.append_nil _).symm
  | cons p ps ih =>
    obtain ⟨hp, hps⟩ := List.forall_mem_cons.mp hk
    obtain ⟨u, hu⟩ := advance_total p s
    rw [runInputs_cons hu] at h
    rw [trace_cons hu, rawsOf_flatten_cons, List.append_assoc, ih (advance_framerRun ha hp hu).1 hps h,
      advance_rawFeed ha hp hu, List.map_cons]

/-- Settles O54: every step keeps what the raw feed has shown, holds and will accept. -/
theorem rawFeedIsStreamLessDroppedBytes : Obligations.RawFeedIsStreamLessDroppedBytes := by
  intro s ps ha hk
  obtain ⟨t, ht⟩ := runInputs_total ps s
  have hfeed := runInputs_rawFeed ha hk ht
  exact ⟨t, ht, hfeed, fun hcap => by rw [hfeed, acceptedBytes_of_withinCap hcap]⟩

/-! ### A chunk of software (R143) -/

/-- Over BYTE events of a session the batch takes byte after byte up to its capacity. -/
theorem runInputs_batch_of_bytes {ps : List PortInput} {ds : List Byte} {s t : State} (ha : s.active = true)
    (hps : ps.map PortInput.instr = ds.map Instr.byte) (h : runInputs ps s = .next t) :
    t.batch = ds.foldl (appendCapped 256) s.batch := by
  induction ds generalizing ps s with
  | nil =>
    obtain rfl : ps = [] := by simpa using hps
    cases h
    rfl
  | cons d ds ih =>
    obtain ⟨p, ps, rfl, hp, hps⟩ := List.map_eq_cons_iff.mp hps
    have hstep : advance p s = .next (ingestByte 256 d (atPorts p s)) := by
      rw [advance_eq, hp, exec_byte_active (by exact ha)]
    rw [runInputs_cons hstep] at h
    rw [ih (by simp [ha]) hps h, ingestByte_batch, atPorts_batch, List.foldl_cons]

/-- Settles O56: the frames are those of `Feed` of one chunk, the last of them fills the slot, and the batch takes the bytes
one by one. -/
theorem chunkIsRunOfByteEvents : Obligations.ChunkIsRunOfByteEvents := by
  intro s chunk ps ha hb hps
  have hk := keepsSession_of_bytes hps
  obtain ⟨t, ht, hframes, hbacklog⟩ := framesIndependentOfChunking s [chunk] ps ha hb (by simpa using hps)
  have hfeed : (feedChunks s.backlog [chunk]).2 = (feed s.backlog chunk).2 := List.append_nil _
  rw [hfeed] at hframes
  have hactive := runInputs_active ha (fun p hp => (hk p hp).1) ht
  have hslot := runInputs_slot hk ht
  rw [hframes] at hslot
  refine ⟨t, ht, hframes, hactive.trans ha.symm, hslot.trans ?_, runInputs_batch_of_bytes ha hps ht, hbacklog⟩
  simp only [onBytes]
  cases (feed s.backlog chunk).2.getLast? <;> rfl

/-! ### A clean restart (R142) -/

/-- The state with another history: other inputs to come, another position and mark, and other messages last shown. -/
def State.withHistoryOf (s u : State) : State :=
  { s with
    inputs := u.inputs
    pos := u.pos
    out := { s.out with fr := u.out.fr, raw := u.out.raw, dec := u.out.dec }
    runRefused := u.runRefused }

/-- States with the same block are at the ports the same but for their histories. -/
theorem atPorts_of_block_eq {s u : State} (h : u.block = s.block) (p : PortInput) :
    atPorts p u = (atPorts p s).withHistoryOf (atPorts p u) := by
  cases s; cases u; cases h; rfl

/-- Ingesting a byte does not look at the history. -/
theorem ingestByte_withHistoryOf (cap : Nat) (d : Byte) (s u : State) :
    (ingestByte cap d (s.withHistoryOf u)).block = (ingestByte cap d s).block ∧
      (ingestByte cap d (s.withHistoryOf u)).out = (ingestByte cap d s).out := by
  simp only [ingestByte, State.withHistoryOf]
  cases (framerStep s.backlog d).2 <;> exact ⟨rfl, rfl⟩

/-- An event does not look at the history: it leaves the same block and shows the same outputs. -/
theorem exec_withHistoryOf {i : Instr} {s t : State} (h : exec i s = .next t) (hd : ∀ f, i ≠ .decode f)
    (hr : ∀ c, i ≠ .rescale c) (u : State) :
    ∃ v, exec i (s.withHistoryOf u) = .next v ∧ v.block = t.block ∧ v.out = t.out := by
  rcases exec_cases h with ⟨d, rfl, ha, rfl⟩ | ⟨rfl, ha, hne, rfl⟩ | ⟨c, rfl, ha, hc, rfl⟩ | ⟨rfl, rfl⟩ | ⟨hi, rfl⟩ |
    ⟨⟨op, rfl⟩, rfl⟩ | ⟨f, rfl, -⟩ | ⟨c, rfl, -⟩ | ⟨hi, rfl⟩
  · exact ⟨_, exec_byte_active (s := s.withHistoryOf u) ha d, ingestByte_withHistoryOf 256 d s u⟩
  · exact ⟨_, exec_tickRaw_publishes (s := s.withHistoryOf u) ha hne, rfl, rfl⟩
  · exact ⟨_, exec_tickDec_publishes (s := s.withHistoryOf u) ha hc, rfl, rfl⟩
  · exact ⟨_, exec_start _, rfl, rfl⟩
  · rcases hi with rfl | rfl <;> exact ⟨_, rfl, rfl, rfl⟩
  · exact ⟨_, exec_reserved op _, rfl, rfl⟩
  · exact absurd rfl (hd f)
  · exact absurd rfl (hr c)
  · refine ⟨(s.withHistoryOf u).quiet, ?_, rfl, rfl⟩
    rcases hi with rfl | ⟨d, rfl, hoff⟩ | ⟨rfl, hq⟩ | ⟨rfl, hq⟩
    · exact exec_nop _
    · exact exec_byte_inactive (s := s.withHistoryOf u) hoff d
    · exact exec_tickRaw_quiet (s := s.withHistoryOf u) hq
    · exact exec_tickDec_quiet (s := s.withHistoryOf u) hq

/-- The block and the outputs after a step depend on the block before it and the port values alone. -/
theorem advance_of_block_eq {p : PortInput} {s t u : State} (hblock : u.block = s.block) (h : advance p s = .next t) :
    ∃ v, advance p u = .next v ∧ v.block = t.block ∧ v.out = t.out := by
  rw [advance_eq, atPorts_of_block_eq hblock p]
  exact exec_withHistoryOf h (instr_ne_decode p) (instr_ne_rescale p) _

/-- The outputs of a run and the block after it depend on the block before it and the inputs alone. -/
theorem runInputs_of_block_eq {ps : List PortInput} {s t u : State} (hblock : u.block = s.block)
    (h : runInputs ps s = .next t) :
    ∃ v, runInputs ps u = .next v ∧ v.block = t.block ∧ trace ps u = trace ps s := by
  induction ps generalizing s u with
  | nil => cases h; exact ⟨u, rfl, hblock, rfl⟩
  | cons p ps ih =>
    obtain ⟨s', hs'⟩ := advance_total p s
    obtain ⟨u', hu', hblock', hout⟩ := advance_of_block_eq hblock hs'
    rw [runInputs_cons hs'] at h
    obtain ⟨v, hv, hvblock, htrace⟩ := ih hblock' h
    exact ⟨v, (runInputs_cons hu' ps).trans hv, hvblock, by rw [trace_cons hu', trace_cons hs', hout, htrace]⟩

/-- STOP and reset leave the block of the reset state (R137, 70_reset_and_hazards.md R180). -/
theorem advance_clears {e : PortInput} (he : e.instr = .stop ∨ e.instr = .reset) (s : State) :
    ∃ t, advance e s = .next t ∧ t.block = State.reset.block := by
  rw [advance_eq]
  rcases he with he | he <;> rw [he] <;> exact ⟨_, rfl, rfl⟩

/-- Settles O55: after the STOP or reset the block is that of the reset state, on which alone the outputs and states
depend. -/
theorem restartIsClean : Obligations.RestartIsClean := by
  intro s e b ps he _ _
  obtain ⟨s1, hs1, hclear⟩ := advance_clears he s
  obtain ⟨r1, hr1⟩ := advance_total b State.reset
  obtain ⟨s2, hs2, hstart, -⟩ := advance_of_block_eq hclear hr1
  obtain ⟨t2, ht2⟩ := runInputs_total ps r1
  obtain ⟨t1, ht1, hblock, htrace⟩ := runInputs_of_block_eq hstart ht2
  exact ⟨s1, s2, r1, t1, t2, hs1, hs2, hr1, htrace, ht1, ht2, hblock⟩

end Sys2Proof.Machine

/-! ## The failure model: what a run without a reserved event answers (60_exceptions.md) -/

namespace Sys2Proof.Machine

theorem ne_reserved_of_notReserved {i : Instr} (h : notReserved i = true) (op : BitVec 3) : i ≠ .reserved op := by
  rintro rfl
  cases h

/-- A step without a reserved event leaves the mark of a refused run alone. -/
theorem advance_keeps_runRefused {p : PortInput} {s t : State} (hp : notReserved p.instr = true)
    (h : advance p s = .next t) : t.runRefused = s.runRefused := by
  rw [advance_eq] at h
  rw [exec_keeps_runRefused h (ne_reserved_of_notReserved hp), atPorts_runRefused]

/-- A run without a reserved event leaves the mark of a refused run alone. -/
theorem runInputs_keeps_runRefused {ps : List PortInput} {s t : State} (hps : ∀ p ∈ ps, notReserved p.instr = true)
    (h : runInputs ps s = .next t) : t.runRefused = s.runRefused := by
  induction ps generalizing s with
  | nil => cases h; rfl
  | cons p ps ih =>
    obtain ⟨hp, hrest⟩ := List.forall_mem_cons.mp hps
    obtain ⟨u, hu⟩ := advance_total p s
    rw [runInputs_cons hu] at h
    exact (ih hrest h).trans (advance_keeps_runRefused hp hu)

/-- Settles O39: every run answers a next state, and without a reserved event none of its steps sets the mark. -/
theorem runWithoutReservedEventIsSafe : Obligations.RunWithoutReservedEventIsSafe := by
  intro ps s hs hps
  obtain ⟨t, ht⟩ := runInputs_total ps s
  exact ⟨t, ht, (runInputs_keeps_runRefused hps ht).trans hs⟩

end Sys2Proof.Machine

/-! ## Reset, boot, and the environment's timestamps and byte rate (70_reset_and_hazards.md) -/

namespace Sys2Proof.Machine

/-! ### The timestamp input (R185) -/

/-- The state with another timestamp on its ports. -/
def State.withTimestamp (s : State) (ts : Timestamp) : State := { s with port := { s.port with tsIn := ts } }

/-- The state with another timestamp on its ports, and on the decoded message it shows. -/
def State.restamped (t : State) (ts : Timestamp) : State :=
  { t.withTimestamp ts with out := { t.out with dec := t.out.dec.map fun m => { m with ts := ts } } }

/-- The other timestamp on the ports is all that differs where an event starts. -/
theorem atPorts_withTimestamp (p : PortInput) (ts : Timestamp) (s : State) :
    atPorts { p with tsIn := ts } s = (atPorts p s).withTimestamp ts := rfl

/-- Ingesting a byte shows no decoded message that could carry a timestamp. -/
theorem ingestByte_restamped (cap : Nat) (d : Byte) (s : State) (ts : Timestamp) :
    ingestByte cap d (s.withTimestamp ts) = (ingestByte cap d s).restamped ts := by
  simp only [ingestByte, State.withTimestamp]
  cases (framerStep s.backlog d).2 <;> rfl

/-- An event takes a timestamp from the ports to the decoded message it publishes and to nothing else. -/
theorem exec_restamped {i : Instr} {s t : State} (h : exec i s = .next t) (hd : ∀ f, i ≠ .decode f)
    (hr : ∀ c, i ≠ .rescale c) (ts : Timestamp) :
    exec i (s.withTimestamp ts) = .next (t.restamped ts) := by
  rcases exec_cases h with ⟨d, rfl, ha, rfl⟩ | ⟨rfl, ha, hne, rfl⟩ | ⟨c, rfl, ha, hc, rfl⟩ | ⟨rfl, rfl⟩ | ⟨hi, rfl⟩ |
    ⟨⟨op, rfl⟩, rfl⟩ | ⟨f, rfl, -⟩ | ⟨c, rfl, -⟩ | ⟨hi, rfl⟩
  · rw [exec_byte_active (by exact ha), ingestByte_restamped]
  · exact exec_tickRaw_publishes ha hne
  · exact exec_tickDec_publishes (s := s.withTimestamp ts) ha hc
  · exact exec_start _
  · rcases hi with rfl | rfl <;> rfl
  · exact exec_reserved op _
  · exact absurd rfl (hd f)
  · exact absurd rfl (hr c)
  · rcases hi with rfl | ⟨d, rfl, hoff⟩ | ⟨rfl, hq⟩ | ⟨rfl, hq⟩
    · exact exec_nop _
    · exact exec_byte_inactive (s := s.withTimestamp ts) hoff d
    · exact exec_tickRaw_quiet hq
    · exact exec_tickDec_quiet hq

/-- A step on another timestamp leaves the same state, restamped. -/
theorem advance_restamped {p : PortInput} {s t : State} (h : advance p s = .next t) (ts : Timestamp) :
    advance { p with tsIn := ts } s = .next (t.restamped ts) := by
  rw [advance_eq, atPorts_withTimestamp]
  exact exec_restamped (s := atPorts p s) h (instr_ne_decode p) (instr_ne_rescale p) ts

/-- A decoded message carries the timestamp of its step: restamped with that one, the step is itself. -/
theorem advance_dec_ts {p : PortInput} {s t : State} (h : advance p s = .next t) {m : DecMessage} (hm : t.out.dec = some m) :
    m.ts = p.tsIn := by
  have hself : t = t.restamped p.tsIn := by simpa using h.symm.trans (advance_restamped h p.tsIn)
  have hdec := congrArg (fun u : State => u.out.dec) hself
  simp only [State.restamped, hm, Option.map_some, Option.some.injEq] at hdec
  exact congrArg DecMessage.ts hdec

/-- Settles O18: the step on the other timestamp is the same step, restamped. -/
theorem timestampSeenOnlyWhenPublishing : Obligations.TimestampSeenOnlyWhenPublishing := by
  intro p ts s
  obtain ⟨t, ht⟩ := advance_total p s
  refine ⟨t, _, ht, advance_restamped ht ts, rfl, rfl, rfl, rfl, rfl, fun m hm => ⟨advance_dec_ts ht hm, ?_⟩, fun hnone => ?_⟩
  · exact congrArg (Option.map _) hm
  · exact congrArg (Option.map _) hnone

/-! ### The byte rate of the line (R188) -/

/-- Spaced times reach from the first as far as their count says. -/
theorem exists_mem_of_spacedBy {period a : Nat} {l : List Nat} (h : spacedBy period (a :: l) = true) :
    ∃ b ∈ a :: l, a + l.length * period ≤ b := by
  induction l generalizing a with
  | nil => exact ⟨a, List.mem_singleton_self a, by simp⟩
  | cons b l ih =>
    obtain ⟨hab, hrest⟩ : a + period ≤ b ∧ spacedBy period (b :: l) = true := by simpa [spacedBy] using h
    obtain ⟨c, hc, hbc⟩ := ih hrest
    refine ⟨c, List.mem_cons_of_mem a hc, ?_⟩
    rw [List.length_cons, Nat.succ_mul]
    omega

/-- A window of `n` periods holds at most `n` spaced times. -/
theorem length_le_of_spacedBy {period n : Nat} {l : List Nat} (h : spacedBy period l = true)
    (hwindow : ∀ a ∈ l, ∀ b ∈ l, b < a + n * period) : l.length ≤ n := by
  cases l with
  | nil => exact Nat.zero_le n
  | cons a l =>
    obtain ⟨b, hb, hab⟩ := exists_mem_of_spacedBy h
    have hlt := hwindow a List.mem_cons_self b hb
    exact Nat.lt_of_mul_lt_mul_right (a := period) (by omega)

/-- Each byte has one time. -/
theorem length_bytesOf_eq_timesOf (tr : TimedInputs) :
    (bytesOf (tr.map fun x => x.2.instr)).length = (timesOf isByte tr).length := by
  induction tr with
  | nil => rfl
  | cons x tr ih =>
    rw [List.map_cons, bytesOf_cons, List.length_append, ih]
    cases hi : x.2.instr <;> simp [timesOf, isByte, bytesOf, hi, Nat.add_comm]

/-- Without a TICK_RAW there is one interval, with all bytes in it. -/
theorem withinCap_of_no_tickRaw {cap n : Nat} {is : List Instr} (hraw : ∀ i ∈ is, i ≠ .tickRaw)
    (hlen : n + (bytesOf is).length ≤ cap) : withinCap cap n is = true := by
  induction is generalizing n with
  | nil => exact decide_eq_true hlen
  | cons i is ih =>
    obtain ⟨hi, his⟩ := List.forall_mem_cons.mp hraw
    cases i with
    | byte d =>
      have hcons : (bytesOf (.byte d :: is)).length = (bytesOf is).length + 1 := rfl
      exact ih his (by omega)
    | tickRaw => exact absurd rfl hi
    | _ => exact ih his hlen

/-- Without a TICK_RAW no raw message appears. -/
theorem rawsOf_trace_eq_nil {ps : List PortInput} (hk : ∀ p ∈ ps, p.instr ≠ .tickRaw) (s : State) :
    rawsOf (trace ps s) = [] := by
  induction ps generalizing s with
  | nil => rfl
  | cons p ps ih =>
    obtain ⟨hp, hps⟩ := List.forall_mem_cons.mp hk
    obtain ⟨u, hu⟩ := advance_total p s
    have hnone : u.out.raw = none := Option.not_isSome_iff_eq_none.mp (mt (tickRaw_of_advance hu) hp)
    rw [trace_cons hu, rawsOf, List.filterMap_cons_none hnone]
    exact ih hps u

/-- Settles O58: the window has room for as many bytes as the batch, so the raw feed loses none, and without a TICK_RAW the
batch holds all of it. -/
theorem batchHoldsRawOverflowWindow : Obligations.BatchHoldsRawOverflowWindow := by
  intro tr s ha hempty hk hspaced hwindow
  have hinstr : (tr.map Prod.snd).map PortInput.instr = tr.map fun x => x.2.instr := List.map_map
  have hkeeps : ∀ p ∈ tr.map Prod.snd, keepsSession p.instr = true := List.forall_mem_map.mpr fun x hx => (hk x hx).1
  have hraw : ∀ p ∈ tr.map Prod.snd, p.instr ≠ .tickRaw := List.forall_mem_map.mpr fun x hx => (hk x hx).2
  have hcount : (bytesOf (tr.map fun x => x.2.instr)).length ≤ 256 := by
    rw [length_bytesOf_eq_timesOf]
    exact length_le_of_spacedBy (n := 256) hspaced hwindow
  have hcap : withinCap 256 s.batch.length ((tr.map Prod.snd).map PortInput.instr) = true := by
    rw [hempty, hinstr]
    exact withinCap_of_no_tickRaw (List.forall_mem_map.mpr fun x hx => (hk x hx).2) (by simpa using hcount)
  obtain ⟨t, ht, -, hall⟩ := rawFeedIsStreamLessDroppedBytes s _ ha hkeeps
  refine ⟨t, ht, ?_⟩
  simpa [rawsOf_trace_eq_nil hraw, hempty, hinstr] using hall hcap

/-! ### Reset and boot (R180, R182) -/

/-- Settles O3: RESET clears the four elements and shows no message. -/
theorem resetClearsBlockOnly : Obligations.ResetClearsBlockOnly :=
  fun s => ⟨_, exec_reset s, rfl, rfl, rfl, rfl, noMessage_quiet _, sameSurroundings_emit s _ _ _ _ _ _ _⟩

/-- A START step sets the flag and keeps the buffers (42_pipeline.md R136). -/
theorem advance_start {p : PortInput} (hp : p.instr = .start) (s : State) :
    ∃ t, advance p s = .next t ∧ t.block = { s.block with active := true } := by
  rw [advance_eq, hp]
  exact ⟨_, exec_start _, rfl⟩

/-- Settles O6: the reset step leaves the block of the reset state, and START sets the flag in it. -/
theorem bootReachesActiveEmptySession : Obligations.BootReachesActiveEmptySession := by
  intro base s
  have hstart : (base.withEvent 4 0).instr = .start := (instr_withEvent base 4 0).trans (decodeEvent_eventWord 4 0)
  obtain ⟨s1, hs1, hclear⟩ := advance_clears (e := base.withReset) (.inr rfl) s
  obtain ⟨t, ht, hblock⟩ := advance_start hstart s1
  rw [hclear] at hblock
  refine ⟨t, ?_, hblock, congrArg Block.active hblock⟩
  rw [bootInputs, runInputs_cons hs1, runInputs_cons ht]
  rfl

end Sys2Proof.Machine

namespace Sys2Proof

/-! ### The spec's event words (R65, test vectors 2.5) -/

/-- Settles O30: each word of the list is an op field and a data byte, where the decoder's equation gives the operation. -/
theorem specEventWordsDecode : Obligations.SpecEventWordsDecode :=
  ⟨decodeEvent_eventWord 0 0x00, decodeEvent_eventWord 0 0xFF,
    decodeEvent_eventWord 1 0x00, decodeEvent_eventWord 1 0x0F, decodeEvent_eventWord 1 0xFF,
    decodeEvent_eventWord 2 0x00, decodeEvent_eventWord 2 0xFF,
    decodeEvent_eventWord 3 0x00,
    decodeEvent_eventWord 4 0x00,
    decodeEvent_eventWord 5 0x00, decodeEvent_eventWord 5 0xA5,
    decodeEvent_eventWord 6 0x00, decodeEvent_eventWord 7 0xFF⟩

end Sys2Proof
